-- ==== Sys2Proof/Word.lean ====
section
/-! DEFINITION. The words of the block and the fixed-size values made of them (spec/00_scope.md R6, R9;
spec/10_state.md R28). Nothing here has a behaviour of its own: arithmetic on `Word` is `BitVec`'s, which wraps
modulo 2^32 and discards the carry, as R9 asks. -/

namespace Sys2Proof

/-- One byte of an operand block or a result block. -/
abbrev Byte := BitVec 8

/-- A 32-bit unsigned word (R6 "word width"). -/
abbrev Word := BitVec 32

/-- A 64-bit output (R6 "output width"). -/
abbrev DWord := BitVec 64

/-- R28: a *state* in the source's sense, a value of exactly 16 words; word `w` stands at row `w / 4`, column `w % 4`. -/
abbrev Block := Vector Word 16

/-- R6: a key (seed) is exactly 32 bytes. -/
abbrev Key := Vector Byte 32

/-- R6: a nonce is exactly 12 bytes. -/
abbrev Nonce := Vector Byte 12

end Sys2Proof
end

