-- ==== Sys2Proof/Syntax.lean ====
section
/-! DEFINITION. The commands of the block as terms (one constructor per row of spec/opcode_table.json), and the two
halves of a transaction as they cross the command port (spec/30_encoding.md R60). -/

namespace Sys2Proof

/-- R60: what the host sends, a 32-bit command word and an operand block. Any pair may be sent, well formed or not. -/
structure Command where
  word     : Word
  operands : List Byte
  deriving DecidableEq, Repr

/-- R60: what the block returns, a 32-bit response word and a result block. -/
structure Response where
  word   : Word
  result : List Byte
  deriving DecidableEq, Repr

/-- A command that passed the decoder, with its operands assembled (R66, R67). -/
inductive Instr where
  /-- `QR` (R102): quarter round of four words. -/
  | qr (a b c d : Word)
  /-- `DROUND` (R116): one double round of a 16-word state, any 16 words. -/
  | dround (S : Block)
  /-- `INIT` (R125): build a state. The lengths of `key` and `nonce` are the command word's `key_len` and `nonce_len`,
  so each is at most 255 (`Instr.wf`); they need not be 32 and 12, which is what INIT itself checks. -/
  | init (key nonce : List Byte) (counter : Word)
  /-- `LANE` (R144): derive one lane block from a 32-byte key and any counter. -/
  | lane (key : Key) (counter : Word)
  /-- `SEED` (R160): construct the generator. -/
  | seed (key : Key)
  /-- `NEXT` (R162): return the next 64-bit output. -/
  | next
  deriving DecidableEq, Repr

end Sys2Proof
end

