-- ==== Sys2Proof/WellFormed.lean ====
section
/-! DEFINITION. When a term of `Instr` can be sent: the only operands whose size is not in their type are INIT's key and
nonce, whose lengths must fit the 8-bit fields of the command word (spec/30_encoding.md R61, R67; U10: longer ones
"cannot be sent"). -/

namespace Sys2Proof

/-- R61: a byte count that fits an 8-bit length field, 0..255. -/
def lengthFits (bytes : List Byte) : Bool :=
  decide (bytes.length ≤ 255)

/-- A term that some command word and operand block spell. -/
def Instr.wf : Instr → Bool
  | .qr _ _ _ _ => true
  | .dround _ => true
  | .init key nonce _ => lengthFits key && lengthFits nonce
  | .lane _ _ => true
  | .seed _ => true
  | .next => true

end Sys2Proof
end

