-- ==== Sys2Proof/Decode.lean ====
section
/-! DEFINITION. Byte order, the command word's fields, the decoder (total on every command word and every operand block,
refusing by name) and the encoder, from spec/20_memory.md R41 to R46 and spec/30_encoding.md R61 to R72. -/

namespace Sys2Proof

/-! ## Byte order -/

/-- R10 `LE32`: four bytes read as one little-endian word. -/
def le32 (b0 b1 b2 b3 : Byte) : Word :=
  b0.setWidth 32 ||| b1.setWidth 32 <<< 8 ||| b2.setWidth 32 <<< 16 ||| b3.setWidth 32 <<< 24

/-- R10 `bytes_le` of a 32-bit word: `v[7:0], v[15:8], v[23:16], v[31:24]` (R45). -/
def bytesLe (v : Word) : List Byte :=
  [v.extractLsb' 0 8, v.extractLsb' 8 8, v.extractLsb' 16 8, v.extractLsb' 24 8]

/-- R10 `bytes_le` of a 64-bit value: `u[7:0]` to `u[63:56]` (R45). -/
def bytesLe64 (u : DWord) : List Byte :=
  [u.extractLsb' 0 8, u.extractLsb' 8 8, u.extractLsb' 16 8, u.extractLsb' 24 8,
   u.extractLsb' 32 8, u.extractLsb' 40 8, u.extractLsb' 48 8, u.extractLsb' 56 8]

/-- R10 `bytes_le` of a 16-word state: the bytes of its words in order, 64 bytes. -/
def blockBytes (S : Block) : List Byte :=
  S.toList.flatMap bytesLe

/-- R10 `B[k]`. The decoder reads only offsets below `len(B)`, which it has checked (R65), so the 0 is never used. -/
def byteAt (B : List Byte) (k : Nat) : Byte :=
  B.getD k 0

/-- R67: the word operand at offset `o`. -/
def wordAt (B : List Byte) (o : Nat) : Word :=
  le32 (byteAt B o) (byteAt B (o + 1)) (byteAt B (o + 2)) (byteAt B (o + 3))

/-- R66: the 16 words of a state operand, word `w` at byte offset `4w`. -/
def blockAt (B : List Byte) : Block :=
  Vector.ofFn fun w => wordAt B (4 * w.val)

/-- R66: the 32 key bytes at the start of an operand block, in order. -/
def keyAt (B : List Byte) : Key :=
  Vector.ofFn fun i => byteAt B i.val

/-- The 12 nonce bytes of a byte string, in order. -/
def nonceAt (B : List Byte) : Nonce :=
  Vector.ofFn fun i => byteAt B i.val

/-! ## The command word -/

/-- The six defined opcodes (R62). -/
inductive Opcode where
  | qr | dround | init | lane | seed | next
  deriving DecidableEq, Repr

/-- R61: `cw[3:0]`. -/
def opcodeField (cw : Word) : BitVec 4 :=
  cw.extractLsb' 0 4

/-- R61, R67: `key_len = zext(cw[15:8])`, an unsigned byte count. -/
def keyLen (cw : Word) : Nat :=
  (cw.extractLsb' 8 8).toNat

/-- R61, R67: `nonce_len = zext(cw[23:16])`, an unsigned byte count. -/
def nonceLen (cw : Word) : Nat :=
  (cw.extractLsb' 16 8).toNat

/-- R62, R63: the opcode map; 0x0 and 0x7 to 0xF are reserved. -/
def opcodeOf (field : BitVec 4) : Option Opcode :=
  match field.toNat with
  | 0x1 => some .qr
  | 0x2 => some .dround
  | 0x3 => some .init
  | 0x4 => some .lane
  | 0x5 => some .seed
  | 0x6 => some .next
  | _ => none

/-- R64: the reserved-bit mask of a defined opcode. -/
def reservedMask : Opcode → Word
  | .init => 0xFF0000F0
  | _ => 0xFFFFFFF0

/-- R65: the one operand length in bytes that the command word requires. -/
def need (op : Opcode) (cw : Word) : Nat :=
  match op with
  | .qr => 16
  | .dround => 64
  | .init => keyLen cw + nonceLen cw + 4
  | .lane => 36
  | .seed => 32
  | .next => 0

/-- `match` and `mask` of a row of spec/opcode_table.json. -/
def tableRow : Opcode → Word × Word
  | .qr => (0x00000001, 0xFFFFFFFF)
  | .dround => (0x00000002, 0xFFFFFFFF)
  | .init => (0x00000003, 0xFF0000FF)
  | .lane => (0x00000004, 0xFFFFFFFF)
  | .seed => (0x00000005, 0xFFFFFFFF)
  | .next => (0x00000006, 0xFFFFFFFF)

/-! ## The decoder -/

/-- Why the decoder refuses a transaction. -/
inductive DecodeError where
  /-- Opcode 0x0 or 0x7 to 0xF (R63). -/
  | reservedOpcode
  /-- A defined opcode with a nonzero reserved bit (R64). -/
  | reservedBit
  /-- A defined opcode, reserved bits zero, an operand block of another length than `need` (R65). -/
  | operandLength
  deriving DecidableEq, Repr

/-- R201: the `detail` of the ILLEGAL response. -/
def decodeErrorDetail : DecodeError → Byte
  | .reservedOpcode => 1
  | .reservedBit => 2
  | .operandLength => 3

/-- R66, R67: the operands of a transaction whose length has been checked. -/
def assembleOperands (op : Opcode) (cw : Word) (B : List Byte) : Instr :=
  match op with
  | .qr => .qr (wordAt B 0) (wordAt B 4) (wordAt B 8) (wordAt B 12)
  | .dround => .dround (blockAt B)
  | .init =>
    .init (B.take (keyLen cw)) ((B.drop (keyLen cw)).take (nonceLen cw)) (wordAt B (keyLen cw + nonceLen cw))
  | .lane => .lane (keyAt B) (wordAt B 32)
  | .seed => .seed (keyAt B)
  | .next => .next

/-- R71, R72: opcode, then reserved bits, then operand length; the first check that fails decides. -/
def decode (c : Command) : Except DecodeError Instr :=
  match opcodeOf (opcodeField c.word) with
  | none => .error .reservedOpcode
  | some op =>
    if c.word &&& reservedMask op ≠ 0 then .error .reservedBit
    else if c.operands.length ≠ need op c.word then .error .operandLength
    else .ok (assembleOperands op c.word c.operands)

/-! ## The encoder (what the assembler of R73 writes) -/

/-- R125: the command word `0x00NNKK03`. -/
def initWord (keyLength nonceLength : Nat) : Word :=
  0x00000003 ||| (BitVec.ofNat 8 keyLength).setWidth 32 <<< 8 ||| (BitVec.ofNat 8 nonceLength).setWidth 32 <<< 16

/-- R62, R66: the transaction that spells an instruction. -/
def encode : Instr → Command
  | .qr a b c d => ⟨0x00000001, bytesLe a ++ bytesLe b ++ bytesLe c ++ bytesLe d⟩
  | .dround S => ⟨0x00000002, blockBytes S⟩
  | .init key nonce counter => ⟨initWord key.length nonce.length, key ++ nonce ++ bytesLe counter⟩
  | .lane key counter => ⟨0x00000004, key.toList ++ bytesLe counter⟩
  | .seed key => ⟨0x00000005, key.toList⟩
  | .next => ⟨0x00000006, []⟩

/-! ## The host's numbering of an instruction's bits -/

/-- The transaction whose bits are `w`: the command word in bits 31..0, operand byte `k` in bits `39+8k .. 32+8k`, every
bit from `nbits` on zero, and as many operand bytes as the command word requires (R65: "A decoder finds the length of a
transaction from the command word alone"; none for a reserved opcode). -/
def tableCommand (nbits w : Nat) : Command :=
  let bits := w % 2 ^ nbits
  let cw := BitVec.ofNat 32 bits
  let length := match opcodeOf (opcodeField cw) with
    | some op => need op cw
    | none => 0
  ⟨cw, (List.range length).map fun k => BitVec.ofNat 8 (bits >>> (32 + 8 * k))⟩

/-- What the decoder reads from the instruction whose bits are `w`. -/
def decodeTableWord (nbits w : Nat) : Option Instr :=
  match decode (tableCommand nbits w) with
  | .ok i => some i
  | .error _ => none

end Sys2Proof
end

