-- ==== Sys2Proof/Config.lean ====
section
/-! DEFINITION. What the spec leaves open: the lane file's contents after a reset and the latency of a command.
Each is an opaque constant with no body, so that no proof can learn a value of it. -/

namespace Sys2Proof

/-- The contents of the lane file after a reset: word `w` of lane `l` after reset number `n` (0 is the power-on reset,
`State.resets` counts the later ones). R33 and R242: the contents are "unspecified" and "A model gives them no value and
must not pick zero". A free value; log entry 1. -/
opaque Config.laneAtReset (n l w : Nat) : Word

/-- How many cycles beyond the first a command with this opcode number takes. A free value; log entry 6. -/
opaque Config.cyclesBeyondFirst (opcode : Nat) : Nat

/-- R250: `LATENCY(op)`, "a model parameter `LATENCY(op)` of at least 1 cycle"; "No rule of this spec depends on it", so
nothing in the machine reads it. -/
def Config.latency (opcode : Nat) : Nat :=
  1 + Config.cyclesBeyondFirst opcode

end Sys2Proof
end

