-- ==== Sys2Proof/Machine/State.lean ====
section
/-! DEFINITION. The state of the block as plain data: the four elements of spec/10_state.md R20, and beside them the
model's own picture of the command port (what the host has yet to send, what the block has answered). -/

namespace Sys2Proof.Machine

/-- What can happen at the command port, one at a time and in order (R51). -/
inductive PortEvent where
  /-- The host sends a transaction (R60). -/
  | command (c : Command)
  /-- A reset between commands (R240). -/
  | reset
  /-- A reset that arrives while this transaction is in progress: "No response is returned" (R243). -/
  | abort (c : Command)
  deriving DecidableEq, Repr

/-- The status codes of R201, by name. -/
inductive Status where
  | ok | keySize | nonceSize | illegal | notSeeded | exhausted
  deriving DecidableEq, Repr

/-- Nothing stops this machine: "The block has no traps, no exception vector and no handler. Every command ends with one
response" (R200), so every error of the spec is a response in a next state and there is no constructor. -/
inductive Fault
  deriving DecidableEq, Repr

/-- Why an instruction has no meaning. -/
inductive Refusal where
  /-- Raised only by an arm of `exec` whose instruction has no meaning yet; no arm does. Safe: the machine stops. -/
  | notModelled (mnemonic : String)
  deriving DecidableEq, Repr

/-- `lanes`, `idx`, `flip` and `genValid` are the architectural state, "exactly" (R20). The last three fields are the
model's own: `pending` and `responses` are the merged command sequence the host sends (R54) and the sequence of responses
it observes (R14), and `resets` only picks the free value of the next reset's lane file. -/
structure State where
  /-- R21: `LANE[l][w]`, four lanes of 16 words. -/
  lanes : Vector Block 4
  /-- R23: `IDX`, a 5-bit register whose values are 0..16; "A model may type IDX as a natural number below 17". -/
  idx : Fin 17
  /-- R24: `FLIP`; true selects the lane-0/lane-1 pair. -/
  flip : Bool
  /-- R25: `GEN_VALID`, a generator exists. -/
  genValid : Bool
  /-- Port events not yet served, the next one first. -/
  pending : List PortEvent
  /-- Responses returned so far, oldest first. -/
  responses : List Response
  /-- How many resets came after power-on. -/
  resets : Nat
  deriving DecidableEq, Repr

/-- The lane file after reset number `n`: unspecified (R33, R242), a free value in every word. -/
def resetLanes (n : Nat) : Vector Block 4 :=
  Vector.ofFn fun l => Vector.ofFn fun w => Config.laneAtReset n l.val w.val

/-- R240: GEN_VALID 0, IDX 0, FLIP 1, the lane file unspecified, the command port idle. -/
def State.reset : State where
  lanes := resetLanes 0
  idx := 0
  flip := true
  genValid := false
  pending := []
  responses := []
  resets := 0

end Sys2Proof.Machine
end

