-- ==== Sys2Proof/Machine/Ops.lean ====
section
/-! DEFINITION. The named operations every meaning is written over: reading and writing each register, ending a command
with a response, ending it with an error (the one operation that stands where another machine takes an exception), and
the reset of spec/70_reset_and_hazards.md R240. -/

namespace Sys2Proof.Machine

/-- The outcome of one step of this machine. -/
abbrev Result := Host.Outcome State Fault Refusal

/-! ## Registers -/

/-- R10: `LANE[l][w]`. -/
def State.laneWord (s : State) (l : Fin 4) (w : Fin 16) : Word :=
  s.lanes[l][w]

/-- R48: the whole lane file is written together. -/
def State.withLanes (s : State) (L : Vector Block 4) : State :=
  { s with lanes := L }

/-- IDX and FLIP, written together so that no state shows one without the other (R49). -/
def State.withCursor (s : State) (i : Fin 17) (f : Bool) : State :=
  { s with idx := i, flip := f }

/-- GEN_VALID. -/
def State.withGenValid (s : State) (b : Bool) : State :=
  { s with genValid := b }

/-! ## The command port -/

/-- The port with these events left to serve. -/
def State.withPending (s : State) (events : List PortEvent) : State :=
  { s with pending := events }

/-- The response joins those the host has observed. -/
def State.pushResponse (s : State) (r : Response) : State :=
  { s with responses := s.responses ++ [r] }

/-- R201: the code of a status. -/
def statusCode : Status → Byte
  | .ok => 0x00
  | .keySize => 0x01
  | .nonceSize => 0x02
  | .illegal => 0x03
  | .notSeeded => 0x04
  | .exhausted => 0x05

/-- R69: `status` in `rw[7:0]`, `detail` in `rw[15:8]`, `want` in `rw[23:16]`, `rw[31:24]` zero. -/
def responseWord (st : Status) (detail want : Byte) : Word :=
  (statusCode st).setWidth 32 ||| detail.setWidth 32 <<< 8 ||| want.setWidth 32 <<< 16

/-- R10 `respond(status, detail, want, R)`: end the command with this response. -/
def respond (st : Status) (detail want : Byte) (R : List Byte) (s : State) : Result :=
  .next (s.pushResponse ⟨responseWord st detail want, R⟩)

/-- R10 `raise E(detail, want)`: end the command with an error. The result block is empty and no architectural state is
written (R207); there is no vector, no saved register and so nothing to return from (R200, R209). -/
def raise (e : Status) (detail want : Byte) (s : State) : Result :=
  respond e detail want [] s

/-- R72: the response to a transaction the decoder refuses, `ILLEGAL(detail, 0)`. -/
def refuseIllegal (e : DecodeError) (s : State) : Result :=
  raise .illegal (decodeErrorDetail e) 0 s

/-! ## Reset -/

/-- R240: the state a reset leaves, "whatever the command had written" (R243). Responses already returned stay returned. -/
def State.enterReset (s : State) : State :=
  { s with
    lanes := resetLanes (s.resets + 1)
    idx := 0
    flip := true
    genValid := false
    resets := s.resets + 1 }

end Sys2Proof.Machine
end

