-- ==== Sys2Proof/Machine/Flags.lean ====
section
/-! DEFINITION. The cursor: the pair-selector flag FLIP, the only flag of the block, and the word index IDX it paces
(spec/10_state.md R23, R24; spec/44_output_extractor.md R163, R164). The block has no condition codes (R30). -/

namespace Sys2Proof.Machine

/-- R24: the lanes of the low and of the high word of the next output: 0 and 1 while FLIP is 1, 2 and 3 while it is 0. -/
def pairLow (f : Bool) : Fin 4 :=
  if f then 0 else 2

/-- See `pairLow`. -/
def pairHigh (f : Bool) : Fin 4 :=
  if f then 1 else 3

/-- R163, R164: "flip the flag". -/
def flipAfter (f : Bool) : Bool :=
  !f

/-- R163 "index unchanged" while FLIP is 1; R164 "**then** increment `i`" while it is 0. -/
def idxAfter (i : Fin 16) (f : Bool) : Fin 17 :=
  if f then i.castSucc else i.succ

/-- R23: the lane word the next NEXT reads; none at 16, where the generator is exhausted. -/
def wordIndex (i : Fin 17) : Option (Fin 16) :=
  if h : i.val < 16 then some ⟨i.val, h⟩ else none

/-- The cursor moved past the output it stands on. -/
def State.advance (s : State) (i : Fin 16) : State :=
  s.withCursor (idxAfter i s.flip) (flipAfter s.flip)

end Sys2Proof.Machine
end

