-- ==== Sys2Proof/Machine/QuarterRound.lean ====
section
/-! DEFINITION. The quarter round and the QR command (spec/40_quarter_round.md R100 to R104). -/

namespace Sys2Proof.Machine

/-- The four words of a quarter round. -/
structure Quad where
  a : Word
  b : Word
  c : Word
  d : Word
  deriving DecidableEq, Repr

/-- R100: `rotl(x, n) = ((x << n) | (x >> (32 - n))) [31:0]`, used for 0 < n < 32 only. -/
def rotl (x : Word) (n : Nat) : Word :=
  (x <<< n) ||| (x >>> (32 - n))

/-- R101: twelve steps, each reading what the steps before it left. -/
def qr (q : Quad) : Quad :=
  let a := q.a + q.b; let d := q.d ^^^ a; let d := rotl d 16
  let c := q.c + d; let b := q.b ^^^ c; let b := rotl b 12
  let a := a + b; let d := d ^^^ a; let d := rotl d 8
  let c := c + d; let b := b ^^^ c; let b := rotl b 7
  ⟨a, b, c, d⟩

/-- R68: the result block of QR, the words `a'`, `b'`, `c'`, `d'`. -/
def quadBytes (q : Quad) : List Byte :=
  bytesLe q.a ++ bytesLe q.b ++ bytesLe q.c ++ bytesLe q.d

/-- R102 `QR`. -/
def execQr (a b c d : Word) (s : State) : Result :=
  respond .ok 0 0 (quadBytes (qr ⟨a, b, c, d⟩)) s

end Sys2Proof.Machine
end

