-- ==== Sys2Proof/Machine/BlockTransform.lean ====
section
/-! DEFINITION. The rounds, the 8-round permutation and the DROUND command (spec/41_block_transform.md R110 to R117). -/

namespace Sys2Proof.Machine

/-- R110: a group `(a, b, c, d)` of word indexes. -/
structure Group where
  ia : Fin 16
  ib : Fin 16
  ic : Fin 16
  id : Fin 16
  deriving DecidableEq, Repr

/-- R110, row "column". -/
def columnGroups : List Group :=
  [⟨0, 4, 8, 12⟩, ⟨1, 5, 9, 13⟩, ⟨2, 6, 10, 14⟩, ⟨3, 7, 11, 15⟩]

/-- R110, row "diagonal". -/
def diagonalGroups : List Group :=
  [⟨0, 5, 10, 15⟩, ⟨1, 6, 11, 12⟩, ⟨2, 7, 8, 13⟩, ⟨3, 4, 9, 14⟩]

/-- R111: `qr` applied to four words of a state in place. -/
def qrAt (S : Block) (g : Group) : Block :=
  let q := qr ⟨S[g.ia], S[g.ib], S[g.ic], S[g.id]⟩
  (((S.set g.ia q.a).set g.ib q.b).set g.ic q.c).set g.id q.d

/-- R112. -/
def columnRound (S : Block) : Block :=
  columnGroups.foldl qrAt S

/-- R112. -/
def diagonalRound (S : Block) : Block :=
  diagonalGroups.foldl qrAt S

/-- R113: columns before diagonals. -/
def doubleRound (S : Block) : Block :=
  diagonalRound (columnRound S)

/-- R115: four double rounds, nothing added back. -/
def perm8 (S : Block) : Block :=
  doubleRound (doubleRound (doubleRound (doubleRound S)))

/-- R116 `DROUND`. -/
def execDround (S : Block) (s : State) : Result :=
  respond .ok 0 0 (blockBytes (doubleRound S)) s

end Sys2Proof.Machine
end

