-- ==== Sys2Proof/Machine/Operands.lean ====
section
/-! DEFINITION. The operand forms beyond a plain word: key and nonce bytes read as words (spec/20_memory.md R41, R42)
and two lane words packed into one output (R43). The operand block's layout itself (R66) is Decode.lean's. -/

namespace Sys2Proof.Machine

/-- R41: `K_j = LE32(key[4j], key[4j+1], key[4j+2], key[4j+3])`. -/
def keyWord (key : Key) (j : Fin 8) : Word :=
  le32 key[4 * j.val] key[4 * j.val + 1] key[4 * j.val + 2] key[4 * j.val + 3]

/-- R42: `N_j = LE32(nonce[4j], nonce[4j+1], nonce[4j+2], nonce[4j+3])`. -/
def nonceWord (nonce : Nonce) (j : Fin 3) : Word :=
  le32 nonce[4 * j.val] nonce[4 * j.val + 1] nonce[4 * j.val + 2] nonce[4 * j.val + 3]

/-- R140: the nonce of the generator, 12 zero bytes. -/
def zeroNonce : Nonce :=
  Vector.replicate 12 0

/-- R43: `out = {hi, lo} = zext_64(hi) << 32 | zext_64(lo)`. -/
def packOutput (hi lo : Word) : DWord :=
  hi.setWidth 64 <<< 32 ||| lo.setWidth 64

end Sys2Proof.Machine
end

