-- ==== Sys2Proof/Machine/StateInit.lean ====
section
/-! DEFINITION. The state initializer and the INIT command (spec/42_state_initializer.md R120 to R128). -/

namespace Sys2Proof.Machine

/-- R120: the two input-validation errors, each with the length received and the constant length wanted. -/
inductive InitError where
  /-- `KeySizeError(got, want = 32)`. -/
  | keySize (got want : Nat)
  /-- `NonceSizeError(got, want = 12)`. -/
  | nonceSize (got want : Nat)
  deriving DecidableEq, Repr

/-- R121 to R124: four constants, eight key words, the counter, three nonce words. -/
def initState (key : Key) (nonce : Nonce) (counter : Word) : Block :=
  #v[0x61707865, 0x3320646e, 0x79622d32, 0x6b206574,
     keyWord key 0, keyWord key 1, keyWord key 2, keyWord key 3,
     keyWord key 4, keyWord key 5, keyWord key 6, keyWord key 7,
     counter, nonceWord nonce 0, nonceWord nonce 1, nonceWord nonce 2]

/-- R120 `initialize(key, nonce, counter)`: the key's length is checked before the nonce's, and on failure no state is
built (R127). -/
def buildState (key nonce : List Byte) (counter : Word) : Except InitError Block :=
  if key.length ≠ 32 then .error (.keySize key.length 32)
  else if nonce.length ≠ 12 then .error (.nonceSize nonce.length 12)
  else .ok (initState (keyAt key) (nonceAt nonce) counter)

/-- R126: the response each error carries, `got` in `detail` and `want` in `want` (D21). -/
def raiseInit (e : InitError) (s : State) : Result :=
  match e with
  | .keySize got want => raise .keySize (BitVec.ofNat 8 got) (BitVec.ofNat 8 want) s
  | .nonceSize got want => raise .nonceSize (BitVec.ofNat 8 got) (BitVec.ofNat 8 want) s

/-- R125 `INIT`. -/
def execInit (key nonce : List Byte) (counter : Word) (s : State) : Result :=
  match buildState key nonce counter with
  | .error e => raiseInit e s
  | .ok S => respond .ok 0 0 (blockBytes S) s

end Sys2Proof.Machine
end

