-- ==== Sys2Proof/Machine/LaneGenerator.lean ====
section
/-! DEFINITION. The lane generator with its feed-forward, and the LANE command (spec/43_lane_generator.md R140 to
R147). -/

namespace Sys2Proof.Machine

/-- R141, R142: words 4 to 11 of the untransformed state `S0` are added into the transformed state `W`; words 0 to 3 and
12 to 15 stay as `W` has them. -/
def feedForward (S0 W : Block) : Block :=
  Vector.ofFn fun w => if 4 ≤ w.val ∧ w.val ≤ 11 then W[w] + S0[w] else W[w]

/-- R140: the nonce is always 12 zero bytes. -/
def deriveLane (key : Key) (counter : Word) : Block :=
  let S0 := initState key zeroNonce counter
  feedForward S0 (perm8 S0)

/-- R144 `LANE`: the lane file is not written. -/
def execLane (key : Key) (counter : Word) (s : State) : Result :=
  respond .ok 0 0 (blockBytes (deriveLane key counter)) s

end Sys2Proof.Machine
end

