-- ==== Sys2Proof/Machine/OutputExtractor.lean ====
section
/-! DEFINITION. Generator construction and output extraction: the SEED and NEXT commands
(spec/44_output_extractor.md R160 to R170). -/

namespace Sys2Proof.Machine

/-- R160: lane `l` is `derive_lane(K, l)`, l = 0, 1, 2, 3. -/
def seedLanes (key : Key) : Vector Block 4 :=
  #v[deriveLane key 0, deriveLane key 1, deriveLane key 2, deriveLane key 3]

/-- R160 `SEED`: all 64 lane words, IDX, FLIP and GEN_VALID in one command; the seed is not kept (R31). -/
def execSeed (key : Key) (s : State) : Result :=
  respond .ok 0 0 [] (((s.withLanes (seedLanes key)).withCursor 0 true).withGenValid true)

/-- R163, R164: the output the cursor stands on, at index `i`. -/
def State.outputAt (s : State) (i : Fin 16) : DWord :=
  packOutput (s.laneWord (pairHigh s.flip) i) (s.laneWord (pairLow s.flip) i)

/-- R162 `NEXT`: not seeded (R167) is checked before exhausted (R166); the lane file is read and never written (R169). -/
def execNext (s : State) : Result :=
  if s.genValid = false then raise .notSeeded 0 0 s
  else match wordIndex s.idx with
    | none => raise .exhausted 0 0 s
    | some i => respond .ok 0 0 (bytesLe64 (s.outputAt i)) (s.advance i)

end Sys2Proof.Machine
end

