-- ==== Sys2Proof/Machine/Dispatch.lean ====
section
/-! DEFINITION. Which meaning each instruction has: one arm per constructor of Instr. -/

namespace Sys2Proof.Machine

def exec (i : Instr) (s : State) : Host.Outcome State Fault Refusal :=
  match i with
  | .qr a b c d => Sys2Proof.Machine.execQr a b c d s
  | .dround S => Sys2Proof.Machine.execDround S s
  | .init key nonce counter => Sys2Proof.Machine.execInit key nonce counter s
  | .lane key counter => Sys2Proof.Machine.execLane key counter s
  | .seed key => Sys2Proof.Machine.execSeed key s
  | .next => Sys2Proof.Machine.execNext s

end Sys2Proof.Machine
end

