-- ==== Sys2Proof/Machine/Transaction.lean ====
section
/-! DEFINITION. What the block does with one event at its command port (spec/30_encoding.md R60, R71, R72;
spec/70_reset_and_hazards.md R240, R243). -/

namespace Sys2Proof.Machine

/-- R72: decode, refuse with ILLEGAL what the decoder refuses, run the rest. -/
def transact (c : Command) (s : State) : Result :=
  match decode c with
  | .error e => refuseIllegal e s
  | .ok i => exec i s

/-- One port event, already taken off the port. A reset between commands and a reset during a command leave the same
state and no response (R243). -/
def serve (e : PortEvent) (s : State) : Result :=
  match e with
  | .command c => transact c s
  | .reset => .next s.enterReset
  | .abort _ => .next s.enterReset

/-- R218: "Between commands the block is idle and holds its state." -/
def idle (s : State) : Result :=
  .next s

end Sys2Proof.Machine
end

