-- ==== Sys2Proof/Machine/Step.lean ====
section
/-! DEFINITION. One step of the machine: the block serves the next event at its port, whole (spec/00_scope.md R14,
spec/20_memory.md R49, R51), or idles. -/

namespace Sys2Proof.Machine

/-- R14: "one agent, the block, stepped by one command at a time". -/
def step (s : State) : Host.Outcome State Fault Refusal :=
  match s.pending with
  | [] => idle s
  | e :: rest => serve e (s.withPending rest)

/-- The host sends the transaction whose bits are `w` next: it stands at the head of the port, where `step` takes its
next event. The block fetches nothing (R55): commands come from outside the machine, and this stands for that. -/
def State.withFetchWord (s : State) (nbits w : Nat) : State :=
  s.withPending (.command (tableCommand nbits w) :: s.pending)

end Sys2Proof.Machine
end

