-- ==== Sys2Proof/Safety.lean ====
section
/-! DEFINITION. What the statements are made of: the architectural state as one thing, the invariant of the generator,
the legal responses, the order of the checks on raw bits, and the outputs in closed form. -/

namespace Sys2Proof.Safety

open Sys2Proof.Machine

/-- The whole architectural state of R20 is the same in both. -/
def SameGenerator (s t : State) : Prop :=
  s.lanes = t.lanes ∧ s.idx = t.idx ∧ s.flip = t.flip ∧ s.genValid = t.genValid

/-- R27: `n = 2*IDX + (1 - FLIP)`, the successful NEXTs since the last SEED. -/
def outputCount (s : State) : Nat :=
  2 * s.idx.val + (if s.flip then 0 else 1)

/-- What holds of the generator in every state a run can reach. -/
structure GeneratorInv (s : State) : Prop where
  /-- R22: the lane file is that of some seed, once there has been one. -/
  lanesDerived : s.genValid = true → ∃ K, s.lanes = seedLanes K
  /-- R26: the pair (16, 0) "is never reached". -/
  cursorLegal : s.flip = false → s.idx.val ≤ 15
  /-- R241: before a SEED the cursor stands where reset put it. -/
  cursorAtStart : s.genValid = false → s.idx = 0 ∧ s.flip = true

/-- The rows of R201, with the fields of R69 and the block lengths of R68. -/
def LegalResponse (r : Response) : Prop :=
  (r.word = 0 ∧ r.result.length ∈ [0, 8, 16, 64]) ∨
  (r.result = [] ∧
    ((∃ got : Byte, got ≠ 32 ∧ r.word = 0x00200001 + got.setWidth 32 <<< 8) ∨
     (∃ got : Byte, got ≠ 12 ∧ r.word = 0x000C0002 + got.setWidth 32 <<< 8) ∨
     r.word ∈ [(0x00000103 : Word), 0x00000203, 0x00000303, 0x00000004, 0x00000005]))

/-- Every response the host has observed is one the spec lists. -/
def ResponsesLegal (s : State) : Prop :=
  ∀ r ∈ s.responses, LegalResponse r

/-- R210: a run without an error response, as a premise a claim may take. -/
def NoErrorResponse (s : State) : Prop :=
  ∀ r ∈ s.responses, r.word.extractLsb' 0 8 = 0

/-- R65: `need`, from the bits of the command word; 0 where the opcode is reserved. -/
def requiredBytes (cw : Word) : Nat :=
  match cw.toNat % 16 with
  | 1 => 16
  | 2 => 64
  | 3 => cw.toNat / 2 ^ 8 % 256 + cw.toNat / 2 ^ 16 % 256 + 4
  | 4 => 36
  | 5 => 32
  | _ => 0

/-- R71, R208: the response word that the first failing check decides, from the raw bits of the transaction and the
state it finds; 0 where none fails. -/
def checkedWord (cw : Word) (B : List Byte) (s : State) : Word :=
  if cw.toNat % 16 = 0 ∨ 7 ≤ cw.toNat % 16 then 0x00000103
  else if cw &&& (if cw.toNat % 16 = 3 then 0xFF0000F0 else 0xFFFFFFF0) ≠ 0 then 0x00000203
  else if B.length ≠ requiredBytes cw then 0x00000303
  else if cw.toNat % 16 = 3 ∧ cw.toNat / 2 ^ 8 % 256 ≠ 32 then
    BitVec.ofNat 32 (0x00200001 + 2 ^ 8 * (cw.toNat / 2 ^ 8 % 256))
  else if cw.toNat % 16 = 3 ∧ cw.toNat / 2 ^ 16 % 256 ≠ 12 then
    BitVec.ofNat 32 (0x000C0002 + 2 ^ 8 * (cw.toNat / 2 ^ 16 % 256))
  else if cw.toNat % 16 = 6 ∧ s.genValid = false then 0x00000004
  else if cw.toNat % 16 = 6 ∧ s.idx.val = 16 then 0x00000005
  else 0x00000000

/-- Word `k` of a block; 0 past its end. -/
def wordOf (S : Block) (k : Nat) : Word :=
  S.toList.getD k 0

/-- R161: the result bytes of output `k`, low word first: lanes 0 and 1 while `k` is even, 2 and 3 while it is odd, at
index `k / 2`. -/
def closedOutput (K : Key) (k : Nat) : List Byte :=
  if k % 2 = 0 then bytesLe (wordOf (deriveLane K 0) (k / 2)) ++ bytesLe (wordOf (deriveLane K 1) (k / 2))
  else bytesLe (wordOf (deriveLane K 2) (k / 2)) ++ bytesLe (wordOf (deriveLane K 3) (k / 2))

/-- R32: the four commands that read and write no architectural state. -/
def isPure : Instr → Bool
  | .qr _ _ _ _ => true
  | .dround _ => true
  | .init _ _ _ => true
  | .lane _ _ => true
  | .seed _ => false
  | .next => false

/-- The host sending the transaction that spells `i`. -/
def send (i : Instr) : PortEvent :=
  .command (encode i)

/-- A port event that is a command and no SEED: it neither resets the block nor builds a generator. -/
def keepsGenerator (e : PortEvent) : Bool :=
  match e with
  | .command c =>
    match decode c with
    | .ok (.seed _) => false
    | _ => true
  | .reset => false
  | .abort _ => false

/-- The event is a transaction that decodes to NEXT. -/
def isNextCommand (e : PortEvent) : Bool :=
  match e with
  | .command c => decide (decode c = .ok .next)
  | .reset => false
  | .abort _ => false

/-- The event is a command: it is answered. -/
def isCommand : PortEvent → Bool
  | .command _ => true
  | .reset => false
  | .abort _ => false

/-- The result block the host gets when it sends `i` to the block in state `s`. -/
def resultOf (i : Instr) (s : State) : List Byte :=
  match exec i s with
  | .next t => ((t.responses.getLast?).map (·.result)).getD []
  | .fault _ => []
  | .refused _ => []

end Sys2Proof.Safety
end

