-- ==== Sys2Proof/Certificates/Slice0/Obligations.lean ====
section
/-! DEFINITION. The statements about this machine, from the numbered rules of spec/. Each docstring names the rules it
formalises. `responses` is the model's record of what the host observes (log entry 3): "nothing changes" is said of every
other field. -/

open Sys2Proof Sys2Proof.Machine Sys2Proof.Safety

/-! ## Encoding and decoding -/

/-- Spec 30 sections 2 and 3: the decoder reads back every operand of every well-formed instruction. -/
def Obligations.DecodeEncodeRoundTrip : Prop :=
  ∀ i : Instr, i.wf = true → decode (encode i) = .ok i

/-- Spec 30 sections 2 and 3: a transaction the decoder accepts is the encoding of what it reads, so no two transactions
spell one instruction and no accepted bit is dropped. -/
def Obligations.EncodeDecodeRoundTrip : Prop :=
  ∀ (c : Command) (i : Instr), decode c = .ok i → i.wf = true ∧ encode i = c

/-- In order: V-QR-1 of spec 95; an INIT with a 2-byte key and a 1-byte nonce, laid out by R61 and R66; NEXT's word of
R62; V-NX-4; V-NX-3; V-DEC-1. -/
def Obligations.SpecWordsDecode : Prop :=
  decode ⟨0x00000001, [0x11, 0x11, 0x11, 0x11, 0x04, 0x03, 0x02, 0x01, 0x43, 0x6f, 0x8d, 0x9b, 0x67, 0x45, 0x23, 0x01]⟩
    = .ok (.qr 0x11111111 0x01020304 0x9b8d6f43 0x01234567) ∧
  decode ⟨0x00010203, [0xaa, 0xbb, 0xcc, 0x04, 0x03, 0x02, 0x01]⟩ = .ok (.init [0xaa, 0xbb] [0xcc] 0x01020304) ∧
  decode ⟨0x00000006, []⟩ = .ok .next ∧
  decode ⟨0x00000106, []⟩ = .error .reservedBit ∧
  decode ⟨0x00000006, [0x00]⟩ = .error .operandLength ∧
  decode ⟨0x00000000, []⟩ = .error .reservedOpcode

/-- spec/opcode_table.json: a transaction is accepted exactly when its word matches a row, `(cw & mask) == match`, and its
operand block has the row's length; no word matches two rows. -/
def Obligations.OpcodeTableDecidesAcceptance : Prop :=
  (∀ (cw : Word) (B : List Byte),
    (∃ i, decode ⟨cw, B⟩ = .ok i) ↔
      ∃ op, cw &&& (tableRow op).2 = (tableRow op).1 ∧ B.length = requiredBytes cw) ∧
  ∀ (cw : Word) (op op' : Opcode),
    cw &&& (tableRow op).2 = (tableRow op).1 → cw &&& (tableRow op').2 = (tableRow op').1 → op = op'

/-- R63: opcodes 0x0 and 0x7 to 0xF, whatever the other bits and the operand block. -/
def Obligations.ReservedOpcodeRefused : Prop :=
  ∀ (cw : Word) (B : List Byte) (s : State),
    (cw.toNat % 16 = 0 ∨ 7 ≤ cw.toNat % 16) →
      transact ⟨cw, B⟩ s = .next { s with responses := s.responses ++ [⟨0x00000103, []⟩] }

/-- R64: the reserved bits are `cw[31:4]`, for INIT `cw[31:24]` and `cw[7:4]`; the same as masks. -/
def Obligations.ReservedBitRefused : Prop :=
  (∀ (cw : Word) (B : List Byte) (s : State),
    ((cw.toNat % 16 ∈ [1, 2, 4, 5, 6] ∧ cw.toNat / 2 ^ 4 ≠ 0) ∨
     (cw.toNat % 16 = 3 ∧ (cw.toNat / 2 ^ 24 ≠ 0 ∨ cw.toNat / 2 ^ 4 % 16 ≠ 0))) →
      transact ⟨cw, B⟩ s = .next { s with responses := s.responses ++ [⟨0x00000203, []⟩] }) ∧
  (∀ cw : Word, cw &&& 0xFFFFFFF0 = 0 ↔ cw.toNat / 2 ^ 4 = 0) ∧
  (∀ cw : Word, cw &&& 0xFF0000F0 = 0 ↔ cw.toNat / 2 ^ 24 = 0 ∧ cw.toNat / 2 ^ 4 % 16 = 0) ∧
  reservedMask .init = 0xFF0000F0 ∧ ∀ op, op ≠ .init → reservedMask op = 0xFFFFFFF0

/-- R65: for a defined opcode with all reserved bits 0, the one length is accepted and every other is refused. -/
def Obligations.OperandLengthDecides : Prop :=
  ∀ (cw : Word) (B : List Byte) (s : State) (length : Nat),
    ((cw = 0x00000001 ∧ length = 16) ∨ (cw = 0x00000002 ∧ length = 64) ∨
     (cw.toNat % 2 ^ 8 = 3 ∧ cw.toNat < 2 ^ 24 ∧
       length = cw.toNat / 2 ^ 8 % 256 + cw.toNat / 2 ^ 16 % 256 + 4) ∨
     (cw = 0x00000004 ∧ length = 36) ∨ (cw = 0x00000005 ∧ length = 32) ∨ (cw = 0x00000006 ∧ length = 0)) →
      (B.length = length → ∃ i, decode ⟨cw, B⟩ = .ok i) ∧
      (B.length ≠ length →
        transact ⟨cw, B⟩ s = .next { s with responses := s.responses ++ [⟨0x00000303, []⟩] })

/-- R71, R208: for every command word, operand block and state, the response word is the one the first failing check of
the spec's order decides (`checkedWord`, on the raw bits). -/
def Obligations.FirstFailingCheckDecides : Prop :=
  ∀ (cw : Word) (B : List Byte) (s : State),
    ∃ t R, transact ⟨cw, B⟩ s = .next t ∧ t.responses = s.responses ++ [⟨checkedWord cw B s, R⟩]

/-! ## Steps and the command port -/

/-- Spec 30 R72 and 20 R51: a step takes the next transaction off the port and runs what the decoder reads. -/
def Obligations.StepRunsDecodedCommand : Prop :=
  ∀ (s : State) (c : Command) (rest : List PortEvent) (i : Instr),
    s.pending = .command c :: rest → decode c = .ok i → step s = exec i { s with pending := rest }

/-- Spec 30 R72: what the decoder refuses is answered with ILLEGAL and its detail. -/
def Obligations.StepRefusesUndecoded : Prop :=
  ∀ (s : State) (c : Command) (rest : List PortEvent) (e : DecodeError),
    s.pending = .command c :: rest → decode c = .error e →
      step s = .next { s with pending := rest, responses := s.responses ++ [⟨match e with
        | .reservedOpcode => 0x00000103
        | .reservedBit => 0x00000203
        | .operandLength => 0x00000303, []⟩] }

/-- R218: "Between commands the block is idle and holds its state." That a step with nothing to serve is an idle step is
the model's choice (log entry 4, DEDUCED). -/
def Obligations.IdleStepHoldsState : Prop :=
  ∀ s : State, s.pending = [] → step s = .next s

/-- R249 and R200: every command is answered, once and at once, and an answer that is no success carries no bytes. -/
def Obligations.EveryCommandAnsweredOnce : Prop :=
  ∀ (s : State) (c : Command) (rest : List PortEvent), s.pending = .command c :: rest →
    ∃ t r, step s = .next t ∧ t.responses = s.responses ++ [r] ∧ t.pending = rest ∧
      (r.word.extractLsb' 0 8 ≠ 0 → r.result = [])

/-- R51 and R60 for the commands, over any sequence of port events: each step serves the next event, none is skipped or
answered twice, and the answers join the earlier ones in order. That a command aborted by a reset is not answered is R243.
That a reset is a port event of its own, and that the events behind it stay and are served, is the model's choice (log
entry 5, DEDUCED), no rule of the spec. -/
def Obligations.EventsServedInOrder : Prop :=
  ∀ (events later : List PortEvent) (s : State), s.pending = events ++ later →
    ∃ t answers, core.run events.length s = .next t ∧ t.pending = later ∧
      t.responses = s.responses ++ answers ∧ answers.length = (events.filter isCommand).length

/-- R207: a command that returns any status other than OK writes no architectural state and returns no bytes. -/
def Obligations.ErrorsWriteNoState : Prop :=
  ∀ (s t : State) (c : Command) (rest : List PortEvent) (r : Response),
    s.pending = .command c :: rest → step s = .next t → t.responses = s.responses ++ [r] →
    r.word.extractLsb' 0 8 ≠ 0 →
      SameGenerator s t ∧ r.result = [] ∧ t = { s with pending := rest, responses := s.responses ++ [r] }

/-! ## Reset -/

/-- R240: GEN_VALID 0, IDX 0, FLIP 1, the port idle. The lane file is a free value (log entry 1), of which nothing is
said. -/
def Obligations.ResetLeavesNoGenerator : Prop :=
  State.reset.genValid = false ∧ State.reset.idx = 0 ∧ State.reset.flip = true ∧ State.reset.pending = []

/-- R243: a reset aborts the command in progress without a response and leaves GEN_VALID, IDX and FLIP as R240 gives
them, whatever came before; a reset between commands is R240's. The clause `t.pending = rest`, that the events behind the
reset stay, is the model's choice (log entry 5, DEDUCED), no rule of the spec. -/
def Obligations.ResetAbortsWithoutResponse : Prop :=
  ∀ (s : State) (c : Command) (rest : List PortEvent),
    (s.pending = .abort c :: rest ∨ s.pending = .reset :: rest) →
      ∃ t, step s = .next t ∧ t.genValid = false ∧ t.idx = 0 ∧ t.flip = true ∧
        t.responses = s.responses ∧ t.pending = rest

/-- R241, R242: while GEN_VALID is 0, the lane file, IDX and FLIP cannot be observed: two blocks that differ in nothing
else give the same responses for ever, whatever the host sends. Resets may stand among the events, and are served as log
entry 5 (DEDUCED) says. -/
def Obligations.UnseededStateNeverObserved : Prop :=
  ∀ (n : Nat) (s u t : State), s.genValid = false → u.genValid = false →
    s.pending = u.pending → s.responses = u.responses → core.run n s = .next t →
      ∃ v, core.run n u = .next v ∧ v.responses = t.responses

/-! ## Invariants -/

/-- R22, R26: the lane file is always that of some seed once there was one, and the cursor is never at (16, 0). -/
def Obligations.StepKeepsGenerator : Prop :=
  ∀ s t : State, GeneratorInv s → step s = .next t → GeneratorInv t

/-- The invariants hold after reset. -/
def Obligations.ResetMeetsInvariants : Prop :=
  GeneratorInv State.reset ∧ ResponsesLegal State.reset

/-- R201, R69, R68: the block never returns a status, a detail, a want, a reserved bit or a block length other than those
the spec lists. -/
def Obligations.StepKeepsResponsesLegal : Prop :=
  ∀ s t : State, ResponsesLegal s → step s = .next t → ResponsesLegal t

/-- R25: after any command GEN_VALID is 1 exactly if it was 1 or the command is a SEED; a reset clears it; NEXT at
GEN_VALID = 0 is refused with NOT_SEEDED. -/
def Obligations.GenValidSetBySeedClearedByReset : Prop :=
  State.reset.genValid = false ∧
  (∀ (s : State) (c : Command) (rest : List PortEvent), s.pending = .command c :: rest →
    ∃ t, step s = .next t ∧ (t.genValid = true ↔ s.genValid = true ∨ ∃ K, decode c = .ok (.seed K))) ∧
  (∀ (s : State) (e : PortEvent) (rest : List PortEvent), s.pending = e :: rest → isCommand e = false →
    ∃ t, step s = .next t ∧ t.genValid = false) ∧
  ∀ s : State, s.genValid = false →
    exec .next s = .next { s with responses := s.responses ++ [⟨0x00000004, []⟩] }

/-- R22 and R169: a SEED with seed `K` leaves `derive_lane(K, l)` in lane `l`, and the lane file then changes only at the
next SEED or a reset. -/
def Obligations.LaneFileWrittenBySeedOnly : Prop :=
  (∀ (s : State) (K : Key) (rest : List PortEvent), s.pending = send (.seed K) :: rest →
    ∃ t, step s = .next t ∧ ∀ l : Fin 4, t.lanes[l] = deriveLane K (BitVec.ofNat 32 l.val)) ∧
  ∀ (s t : State) (e : PortEvent) (rest : List PortEvent), s.pending = e :: rest → step s = .next t →
    keepsGenerator e = true → t.lanes = s.lanes

/-! ## QR -/

/-- R100: bit `k` of the result is bit `(k - n) mod 32` of `x`; the formula. -/
def Obligations.RotlMovesBits : Prop :=
  ∀ (x : Word) (n k : Nat), 0 < n → n < 32 → k < 32 →
    (rotl x n).getLsbD k = x.getLsbD ((k + 32 - n) % 32) ∧ rotl x n = (x <<< n) ||| (x >>> (32 - n))

/-- R101: QR answers with the words of the twelve steps, written here one by one over the library's own rotation, and
changes nothing else. -/
def Obligations.QrAnswersTwelveSteps : Prop :=
  ∀ (a0 b0 c0 d0 : Word) (s : State),
    let a1 := a0 + b0;  let d1 := (d0 ^^^ a1).rotateLeft 16
    let c1 := c0 + d1;  let b1 := (b0 ^^^ c1).rotateLeft 12
    let a2 := a1 + b1;  let d2 := (d1 ^^^ a2).rotateLeft 8
    let c2 := c1 + d2;  let b2 := (b1 ^^^ c2).rotateLeft 7
    exec (.qr a0 b0 c0 d0) s =
      .next { s with responses := s.responses ++ [⟨0, bytesLe a2 ++ bytesLe b2 ++ bytesLe c2 ++ bytesLe d2⟩] }

/-- R103: every step of the quarter round can be undone. -/
def Obligations.QuarterRoundBijective : Prop :=
  Function.Bijective qr

/-- R104: the zero tuple is a fixed point, and the all-zero state stays all zero under every round. -/
def Obligations.ZeroStaysZero : Prop :=
  qr ⟨0, 0, 0, 0⟩ = ⟨0, 0, 0, 0⟩ ∧
  columnRound (Vector.replicate 16 0) = Vector.replicate 16 0 ∧
  diagonalRound (Vector.replicate 16 0) = Vector.replicate 16 0 ∧
  doubleRound (Vector.replicate 16 0) = Vector.replicate 16 0 ∧
  perm8 (Vector.replicate 16 0) = Vector.replicate 16 0

/-! ## DROUND -/

/-- R110, R112, R28, read off the 4×4 matrix: the column round works on column `j`, the diagonal round on the diagonal
that starts at column `j`, the word of row `r` being in column `(j + r) mod 4`. -/
def Obligations.RoundsWorkOnColumnsAndDiagonals : Prop :=
  ∀ (S : Block) (j : Nat), j < 4 →
    (let q := qr ⟨wordOf S j, wordOf S (4 + j), wordOf S (8 + j), wordOf S (12 + j)⟩
     let C := columnRound S
     wordOf C j = q.a ∧ wordOf C (4 + j) = q.b ∧ wordOf C (8 + j) = q.c ∧ wordOf C (12 + j) = q.d) ∧
    (let q := qr ⟨wordOf S j, wordOf S (4 + (j + 1) % 4), wordOf S (8 + (j + 2) % 4), wordOf S (12 + (j + 3) % 4)⟩
     let D := diagonalRound S
     wordOf D j = q.a ∧ wordOf D (4 + (j + 1) % 4) = q.b ∧ wordOf D (8 + (j + 2) % 4) = q.c ∧
       wordOf D (12 + (j + 3) % 4) = q.d)

/-- R113: DROUND answers with the columns' round followed by the diagonals', and changes nothing else; the other order
gives another result. -/
def Obligations.DroundAnswersColumnsThenDiagonals : Prop :=
  (∀ (S : Block) (s : State),
    exec (.dround S) s =
      .next { s with responses := s.responses ++ [⟨0, blockBytes (diagonalRound (columnRound S))⟩] }) ∧
  ∃ S : Block, columnRound (diagonalRound S) ≠ diagonalRound (columnRound S)

/-- R114: the groups of one round are pairwise disjoint, each has one word of each matrix row, their order does not
matter, and the round is what they give side by side, each read from the state before the round. -/
def Obligations.GroupOrderIrrelevant : Prop :=
  ∀ groups ∈ [columnGroups, diagonalGroups],
    (∀ g ∈ groups, g.ia.val / 4 = 0 ∧ g.ib.val / 4 = 1 ∧ g.ic.val / 4 = 2 ∧ g.id.val / 4 = 3) ∧
    groups.Pairwise (fun g h => g.ia ≠ h.ia ∧ g.ib ≠ h.ib ∧ g.ic ≠ h.ic ∧ g.id ≠ h.id) ∧
    (∀ order : List Group, order.Perm groups → ∀ S : Block, order.foldl qrAt S = groups.foldl qrAt S) ∧
    ∀ g ∈ groups, ∀ S : Block,
      let q := qr ⟨S[g.ia], S[g.ib], S[g.ic], S[g.id]⟩
      let R := groups.foldl qrAt S
      R[g.ia] = q.a ∧ R[g.ib] = q.b ∧ R[g.ic] = q.c ∧ R[g.id] = q.d

/-- R115: four double rounds with nothing added back, and a bijection on states. -/
def Obligations.PermutationIsFourDoubleRounds : Prop :=
  (∀ S : Block, perm8 S = doubleRound^[4] S) ∧ Function.Bijective perm8

/-! ## INIT -/

/-- R121 to R124: what each of the sixteen words is. -/
def Obligations.InitStateWords : Prop :=
  ∀ (key : Key) (nonce : Nonce) (counter : Word),
    let S := initState key nonce counter
    (S[0] = 0x61707865 ∧ S[1] = 0x3320646e ∧ S[2] = 0x79622d32 ∧ S[3] = 0x6b206574) ∧
    (∀ j : Fin 8, wordOf S (4 + j.val) =
      le32 key[4 * j.val] key[4 * j.val + 1] key[4 * j.val + 2] key[4 * j.val + 3]) ∧
    S[12] = counter ∧
    ∀ j : Fin 3, wordOf S (13 + j.val) =
      le32 nonce[4 * j.val] nonce[4 * j.val + 1] nonce[4 * j.val + 2] nonce[4 * j.val + 3]

/-- R120, R127: the key is checked first, and an error carries no state. -/
def Obligations.InitializeChecksKeyThenNonce : Prop :=
  ∀ (key nonce : List Byte) (counter : Word),
    (key.length ≠ 32 → buildState key nonce counter = .error (.keySize key.length 32)) ∧
    (key.length = 32 → nonce.length ≠ 12 → buildState key nonce counter = .error (.nonceSize nonce.length 12)) ∧
    ∀ (K : Key) (N : Nonce), buildState K.toList N.toList counter = .ok (initState K N counter)

/-- Spec 42 section 2: INIT of a 32-byte key and a 12-byte nonce answers with the sixteen constant bytes, the key's bytes,
the counter's and the nonce's, in this order, and changes nothing else. -/
def Obligations.InitAnswersTheStateBytes : Prop :=
  ∀ (key nonce : List Byte) (counter : Word) (s : State), key.length = 32 → nonce.length = 12 →
    exec (.init key nonce counter) s = .next { s with responses := s.responses ++ [⟨0,
      [0x65, 0x78, 0x70, 0x61, 0x6e, 0x64, 0x20, 0x33, 0x32, 0x2d, 0x62, 0x79, 0x74, 0x65, 0x20, 0x6b]
        ++ key ++ bytesLe counter ++ nonce⟩] }

/-- R126, R202, R203, R70: the two length errors and the values their responses carry; nothing else changes. -/
def Obligations.InitLengthErrors : Prop :=
  ∀ (key nonce : List Byte) (counter : Word) (s : State), (Instr.init key nonce counter).wf = true →
    (key.length ≠ 32 → ∃ w : Word,
      exec (.init key nonce counter) s = .next { s with responses := s.responses ++ [⟨w, []⟩] } ∧
      w.toNat = 0x00200001 + 2 ^ 8 * key.length ∧ w.extractLsb' 0 8 = 0x01#8 ∧
      (w.extractLsb' 8 8).toNat = key.length ∧ w.extractLsb' 16 8 = 32#8) ∧
    (key.length = 32 → nonce.length ≠ 12 → ∃ w : Word,
      exec (.init key nonce counter) s = .next { s with responses := s.responses ++ [⟨w, []⟩] } ∧
      w.toNat = 0x000C0002 + 2 ^ 8 * nonce.length ∧ w.extractLsb' 0 8 = 0x02#8 ∧
      (w.extractLsb' 8 8).toNat = nonce.length ∧ w.extractLsb' 16 8 = 12#8)

/-! ## LANE -/

/-- R141, R142, R143: LANE answers with `perm8` of the initial state, the key's words added into words 4 to 11 and nothing
added to the others, and changes nothing else. -/
def Obligations.LaneAnswersFeedForward : Prop :=
  ∀ (key : Key) (counter : Word) (s : State),
    ∃ L : Block, exec (.lane key counter) s = .next { s with responses := s.responses ++ [⟨0, blockBytes L⟩] } ∧
      let P := perm8 (initState key (Vector.replicate 12 0) counter)
      (∀ w, w < 4 ∨ (12 ≤ w ∧ w < 16) → wordOf L w = wordOf P w) ∧
      ∀ j : Fin 8, wordOf L (4 + j.val) = wordOf P (4 + j.val) +
        le32 key[4 * j.val] key[4 * j.val + 1] key[4 * j.val + 2] key[4 * j.val + 3]

/-- R146: only words 4 to 11 of the source take part in the feed-forward. -/
def Obligations.FeedForwardIsolation : Prop :=
  ∀ S S' W : Block, (∀ w : Fin 16, 4 ≤ w.val ∧ w.val ≤ 11 → S[w] = S'[w]) → feedForward S W = feedForward S' W

/-- Spec 95 program P5 for every key, counter and state: INIT, four DROUNDs each on the block the one before it returned,
and the host's own addition of words 4 to 11 give the block that LANE returns. -/
def Obligations.LaneEqualsHostChaCha : Prop :=
  ∀ (key : Key) (counter : Word) (s : State),
    let B0 := blockAt (resultOf (.init key.toList (List.replicate 12 0) counter) s)
    let B1 := blockAt (resultOf (.dround B0) s)
    let B2 := blockAt (resultOf (.dround B1) s)
    let B3 := blockAt (resultOf (.dround B2) s)
    let B4 := blockAt (resultOf (.dround B3) s)
    ∀ w, w < 16 → wordOf (blockAt (resultOf (.lane key counter) s)) w =
      if 4 ≤ w ∧ w ≤ 11 then wordOf B4 w + wordOf B0 w else wordOf B4 w

/-! ## The pure commands and the byte order -/

/-- R32: QR, DROUND, INIT and LANE write no architectural state and read none: their response is the same from any two
states; and taking them out of any sequence of commands leaves the same generator behind. -/
def Obligations.PureCommandsLeaveTheGenerator : Prop :=
  (∀ (i : Instr) (s u : State), isPure i = true → ∃ r,
    exec i s = .next { s with responses := s.responses ++ [r] } ∧
    exec i u = .next { u with responses := u.responses ++ [r] }) ∧
  ∀ (cmds : List Instr) (s : State), (∀ i ∈ cmds, i.wf = true) →
    let rest := cmds.filter fun i => !isPure i
    ∃ t u, core.run cmds.length { s with pending := cmds.map send } = .next t ∧
      core.run rest.length { s with pending := rest.map send } = .next u ∧ SameGenerator t u

/-- Spec 00 section 4 (R10) and R45: `bytes_le` and `LE32` undo each other. -/
def Obligations.BytesAndWordsRoundTrip : Prop :=
  (∀ v : Word, wordAt (bytesLe v) 0 = v) ∧
  (∀ b0 b1 b2 b3 : Byte, bytesLe (le32 b0 b1 b2 b3) = [b0, b1, b2, b3]) ∧
  ∀ S : Block, blockAt (blockBytes S) = S

/-- R43, R46: the eight bytes of an output, read as two words, give `lo` then `hi`. -/
def Obligations.OutputBytesLowWordFirst : Prop :=
  ∀ lo hi : Word, bytesLe64 (hi.setWidth 64 <<< 32 ||| lo.setWidth 64) = bytesLe lo ++ bytesLe hi ∧
    (packOutput hi lo).toNat = hi.toNat * 2 ^ 32 + lo.toNat

/-! ## SEED -/

/-- Spec 44 section 1: SEED answers OK with an empty block from every state and leaves a fresh generator; nothing else
changes. -/
def Obligations.SeedBuildsGenerator : Prop :=
  ∀ (K : Key) (s : State), exec (.seed K) s = .next { s with
    lanes := #v[deriveLane K 0, deriveLane K 1, deriveLane K 2, deriveLane K 3]
    idx := 0
    flip := true
    genValid := true
    responses := s.responses ++ [⟨0, []⟩] }

/-! ## NEXT -/

/-- R163: at FLIP = 1, lane 0's word low and lane 1's high; the flag becomes 0, the index stays, nothing else changes. -/
def Obligations.NextReadsLanes01 : Prop :=
  ∀ (s : State) (i : Fin 16), s.genValid = true → s.idx.val = i.val → s.flip = true →
    exec .next s = .next { s with
      flip := false
      responses := s.responses ++
        [⟨0, bytesLe64 ((s.lanes[1][i]).setWidth 64 <<< 32 ||| (s.lanes[0][i]).setWidth 64)⟩] }

/-- R164: at FLIP = 0, lane 2's word low and lane 3's high, at the index before the increment; the flag becomes 1, the
index is incremented, nothing else changes. -/
def Obligations.NextReadsLanes23 : Prop :=
  ∀ (s : State) (i : Fin 16), s.genValid = true → s.idx.val = i.val → s.flip = false →
    exec .next s = .next { s with
      idx := i.succ
      flip := true
      responses := s.responses ++
        [⟨0, bytesLe64 ((s.lanes[3][i]).setWidth 64 <<< 32 ||| (s.lanes[2][i]).setWidth 64)⟩] }

/-- R167: NEXT before any SEED. -/
def Obligations.NextBeforeSeedRefused : Prop :=
  ∀ s : State, s.genValid = false →
    exec .next s = .next { s with responses := s.responses ++ [⟨0x00000004, []⟩] }

/-- R166: NEXT of an exhausted generator is refused and changes nothing, and the generator stays exhausted through any
sequence of commands without a SEED and without a reset. -/
def Obligations.ExhaustedUntilSeedOrReset : Prop :=
  (∀ s : State, s.genValid = true → s.idx.val = 16 →
    exec .next s = .next { s with responses := s.responses ++ [⟨0x00000005, []⟩] }) ∧
  ∀ (events : List PortEvent) (s : State), s.genValid = true → s.idx.val = 16 → s.pending = events →
    (∀ e ∈ events, keepsGenerator e = true) →
      ∃ t, core.run events.length s = .next t ∧ SameGenerator s t

/-- R209 for NOT_SEEDED: it repeats through any sequence of events without a SEED. Resets may stand among them, and that
the events behind a reset are served is the model's choice (log entry 5, DEDUCED). -/
def Obligations.NotSeededUntilSeed : Prop :=
  ∀ (events : List PortEvent) (s : State), s.genValid = false → s.pending = events →
    (∀ e ∈ events, keepsGenerator e = true ∨ isCommand e = false) →
      ∃ t, core.run events.length s = .next t ∧
        exec .next t = .next { t with responses := t.responses ++ [⟨0x00000004, []⟩] }

/-- R27: `2*IDX + (1 - FLIP)` counts the successful NEXTs since the last SEED: a SEED makes it 0, a NEXT below 32 adds
one, every other command leaves it, and it is at most 32. -/
def Obligations.CursorCountsOutputs : Prop :=
  ∀ (s : State) (c : Command) (rest : List PortEvent),
    GeneratorInv s → s.genValid = true → s.pending = .command c :: rest →
      outputCount s ≤ 32 ∧ ∃ t, step s = .next t ∧ outputCount t =
        match decode c with
        | .ok (.seed _) => 0
        | .ok .next => if outputCount s < 32 then outputCount s + 1 else 32
        | _ => outputCount s

/-- R168: the response of a NEXT depends only on the seed and on how many outputs were taken, and so does the generator
it leaves. -/
def Obligations.NextDependsOnSeedAndCount : Prop :=
  ∀ (s u : State) (K : Key), s.genValid = true → u.genValid = true →
    s.lanes = seedLanes K → u.lanes = seedLanes K → outputCount s = outputCount u →
      ∃ s' u' r, exec .next s = .next s' ∧ exec .next u = .next u' ∧ SameGenerator s' u' ∧
        s'.responses = s.responses ++ [r] ∧ u'.responses = u.responses ++ [r]

/-- R161, R165, R168, R166: from any state whatever, after a SEED with seed `K`, and whatever other commands without a
SEED stand between them, the NEXTs are answered in order with the outputs of the closed form and, from the 33rd on, with
EXHAUSTED. -/
def Obligations.OutputsInClosedForm : Prop :=
  ∀ (K : Key) (events rest : List PortEvent) (s : State),
    s.pending = send (.seed K) :: (events ++ rest) → (∀ e ∈ events, keepsGenerator e = true) →
      ∃ t answers, core.run (events.length + 1) s = .next t ∧ t.pending = rest ∧
        t.responses = s.responses ++ ⟨0, []⟩ :: answers ∧ answers.length = events.length ∧
        ((events.zip answers).filter fun p => isNextCommand p.1).map Prod.snd =
          (List.range (events.filter isNextCommand).length).map fun k =>
            if k < 32 then ⟨0, closedOutput K k⟩ else ⟨0x00000005, []⟩
end

