-- ==== Sys2Proof/Laws/Bytes.lean ====
section
/-! SUPPORT. The byte-order helpers: how long what they write is, and where an operand stands in a block made of
parts. -/

namespace Sys2Proof

@[simp] theorem bytesLe_length (v : Word) : (bytesLe v).length = 4 := rfl

@[simp] theorem bytesLe64_length (u : DWord) : (bytesLe64 u).length = 8 := rfl

@[simp] theorem quadBytes_length (q : Machine.Quad) : (Machine.quadBytes q).length = 16 := rfl

/-- Four bytes a word: the bytes of a list of words are four times as many. -/
theorem flatMap_bytesLe_length (l : List Word) : (l.flatMap bytesLe).length = 4 * l.length := by
  induction l with
  | nil => rfl
  | cons w l ih => simp only [List.flatMap_cons, List.length_append, bytesLe_length, ih, List.length_cons]; omega

@[simp] theorem blockBytes_length (S : Block) : (blockBytes S).length = 64 := by
  simp [blockBytes]

/-- A byte of the first part of a block. -/
theorem byteAt_append_left (A B : List Byte) (k : Nat) (h : k < A.length) : byteAt (A ++ B) k = byteAt A k := by
  rw [byteAt, byteAt, List.getD_append _ _ _ _ h]

/-- A byte of the second part of a block. -/
theorem byteAt_append_right (A B : List Byte) (k : Nat) : byteAt (A ++ B) (A.length + k) = byteAt B k := by
  rw [byteAt, List.getD_append_right _ _ _ _ (Nat.le_add_right _ _), Nat.add_sub_cancel_left, byteAt]

/-- A word of the first part of a block. -/
theorem wordAt_append_left (A B : List Byte) (o : Nat) (h : o + 3 < A.length) : wordAt (A ++ B) o = wordAt A o := by
  simp only [wordAt]
  rw [byteAt_append_left, byteAt_append_left, byteAt_append_left, byteAt_append_left] <;> omega

/-- A word of the second part of a block. -/
theorem wordAt_append_right (A B : List Byte) (o : Nat) : wordAt (A ++ B) (A.length + o) = wordAt B o := by
  simp only [wordAt, Nat.add_assoc, byteAt_append_right]

/-- The key operand that stands at the start of a block is the key that was put there. -/
theorem keyAt_toList_append (key : Key) (B : List Byte) : keyAt (key.toList ++ B) = key := by
  refine Vector.ext fun i hi => ?_
  have h : i < key.toList.length := by simpa using hi
  rw [keyAt, Vector.getElem_ofFn, byteAt_append_left _ _ _ h, byteAt, List.getD_eq_getElem _ _ h]
  simp

/-- Byte `k` of the words of a state is byte `k % 4` of word `k / 4`. -/
theorem byteAt_flatMap_bytesLe (l : List Word) (w k : Nat) (hw : w < l.length) (hk : k < 4) :
    byteAt (l.flatMap bytesLe) (4 * w + k) = byteAt (bytesLe l[w]) k := by
  induction l generalizing w with
  | nil => simp at hw
  | cons v l ih =>
    cases w with
    | zero => simpa using byteAt_append_left (bytesLe v) (l.flatMap bytesLe) k (by simpa using hk)
    | succ w =>
      have h := byteAt_append_right (bytesLe v) (l.flatMap bytesLe) (4 * w + k)
      rw [bytesLe_length, show 4 + (4 * w + k) = 4 * (w + 1) + k by omega] at h
      rw [List.flatMap_cons, h, ih w (by simpa using hw)]
      rfl

end Sys2Proof
end

