-- ==== Sys2Proof/Laws/State.lean ====
section
/-! SUPPORT. One lemma per field and update of the state, each true by rfl, so that no later proof unfolds a record
update; and the fields of the reset state. -/

namespace Sys2Proof.Machine

variable (s : State)

/-! ## withLanes -/

@[simp] theorem State.withLanes_lanes (L : Vector Block 4) : (s.withLanes L).lanes = L := rfl
@[simp] theorem State.withLanes_idx (L : Vector Block 4) : (s.withLanes L).idx = s.idx := rfl
@[simp] theorem State.withLanes_flip (L : Vector Block 4) : (s.withLanes L).flip = s.flip := rfl
@[simp] theorem State.withLanes_genValid (L : Vector Block 4) : (s.withLanes L).genValid = s.genValid := rfl
@[simp] theorem State.withLanes_pending (L : Vector Block 4) : (s.withLanes L).pending = s.pending := rfl
@[simp] theorem State.withLanes_responses (L : Vector Block 4) : (s.withLanes L).responses = s.responses := rfl
@[simp] theorem State.withLanes_resets (L : Vector Block 4) : (s.withLanes L).resets = s.resets := rfl

/-! ## withCursor -/

@[simp] theorem State.withCursor_lanes (i : Fin 17) (f : Bool) : (s.withCursor i f).lanes = s.lanes := rfl
@[simp] theorem State.withCursor_idx (i : Fin 17) (f : Bool) : (s.withCursor i f).idx = i := rfl
@[simp] theorem State.withCursor_flip (i : Fin 17) (f : Bool) : (s.withCursor i f).flip = f := rfl
@[simp] theorem State.withCursor_genValid (i : Fin 17) (f : Bool) : (s.withCursor i f).genValid = s.genValid := rfl
@[simp] theorem State.withCursor_pending (i : Fin 17) (f : Bool) : (s.withCursor i f).pending = s.pending := rfl
@[simp] theorem State.withCursor_responses (i : Fin 17) (f : Bool) : (s.withCursor i f).responses = s.responses := rfl
@[simp] theorem State.withCursor_resets (i : Fin 17) (f : Bool) : (s.withCursor i f).resets = s.resets := rfl

/-! ## withGenValid -/

@[simp] theorem State.withGenValid_lanes (b : Bool) : (s.withGenValid b).lanes = s.lanes := rfl
@[simp] theorem State.withGenValid_idx (b : Bool) : (s.withGenValid b).idx = s.idx := rfl
@[simp] theorem State.withGenValid_flip (b : Bool) : (s.withGenValid b).flip = s.flip := rfl
@[simp] theorem State.withGenValid_genValid (b : Bool) : (s.withGenValid b).genValid = b := rfl
@[simp] theorem State.withGenValid_pending (b : Bool) : (s.withGenValid b).pending = s.pending := rfl
@[simp] theorem State.withGenValid_responses (b : Bool) : (s.withGenValid b).responses = s.responses := rfl
@[simp] theorem State.withGenValid_resets (b : Bool) : (s.withGenValid b).resets = s.resets := rfl

/-! ## withPending -/

@[simp] theorem State.withPending_lanes (events : List PortEvent) : (s.withPending events).lanes = s.lanes := rfl
@[simp] theorem State.withPending_idx (events : List PortEvent) : (s.withPending events).idx = s.idx := rfl
@[simp] theorem State.withPending_flip (events : List PortEvent) : (s.withPending events).flip = s.flip := rfl
@[simp] theorem State.withPending_genValid (events : List PortEvent) : (s.withPending events).genValid = s.genValid := rfl
@[simp] theorem State.withPending_pending (events : List PortEvent) : (s.withPending events).pending = events := rfl
@[simp] theorem State.withPending_responses (events : List PortEvent) : (s.withPending events).responses = s.responses := rfl
@[simp] theorem State.withPending_resets (events : List PortEvent) : (s.withPending events).resets = s.resets := rfl

/-! ## pushResponse -/

@[simp] theorem State.pushResponse_lanes (r : Response) : (s.pushResponse r).lanes = s.lanes := rfl
@[simp] theorem State.pushResponse_idx (r : Response) : (s.pushResponse r).idx = s.idx := rfl
@[simp] theorem State.pushResponse_flip (r : Response) : (s.pushResponse r).flip = s.flip := rfl
@[simp] theorem State.pushResponse_genValid (r : Response) : (s.pushResponse r).genValid = s.genValid := rfl
@[simp] theorem State.pushResponse_pending (r : Response) : (s.pushResponse r).pending = s.pending := rfl
@[simp] theorem State.pushResponse_responses (r : Response) : (s.pushResponse r).responses = s.responses ++ [r] := rfl
@[simp] theorem State.pushResponse_resets (r : Response) : (s.pushResponse r).resets = s.resets := rfl

/-! ## enterReset -/

@[simp] theorem State.enterReset_lanes : (s.enterReset).lanes = resetLanes (s.resets + 1) := rfl
@[simp] theorem State.enterReset_idx : (s.enterReset).idx = 0 := rfl
@[simp] theorem State.enterReset_flip : (s.enterReset).flip = true := rfl
@[simp] theorem State.enterReset_genValid : (s.enterReset).genValid = false := rfl
@[simp] theorem State.enterReset_pending : (s.enterReset).pending = s.pending := rfl
@[simp] theorem State.enterReset_responses : (s.enterReset).responses = s.responses := rfl
@[simp] theorem State.enterReset_resets : (s.enterReset).resets = s.resets + 1 := rfl

/-! ## advance -/

@[simp] theorem State.advance_lanes (i : Fin 16) : (s.advance i).lanes = s.lanes := rfl
@[simp] theorem State.advance_idx (i : Fin 16) : (s.advance i).idx = idxAfter i s.flip := rfl
@[simp] theorem State.advance_flip (i : Fin 16) : (s.advance i).flip = flipAfter s.flip := rfl
@[simp] theorem State.advance_genValid (i : Fin 16) : (s.advance i).genValid = s.genValid := rfl
@[simp] theorem State.advance_pending (i : Fin 16) : (s.advance i).pending = s.pending := rfl
@[simp] theorem State.advance_responses (i : Fin 16) : (s.advance i).responses = s.responses := rfl
@[simp] theorem State.advance_resets (i : Fin 16) : (s.advance i).resets = s.resets := rfl

/-! ## reset -/

@[simp] theorem State.reset_lanes : State.reset.lanes = resetLanes 0 := rfl
@[simp] theorem State.reset_idx : State.reset.idx = 0 := rfl
@[simp] theorem State.reset_flip : State.reset.flip = true := rfl
@[simp] theorem State.reset_genValid : State.reset.genValid = false := rfl
@[simp] theorem State.reset_pending : State.reset.pending = [] := rfl
@[simp] theorem State.reset_responses : State.reset.responses = [] := rfl
@[simp] theorem State.reset_resets : State.reset.resets = 0 := rfl

/-! ## Reading a lane word -/

@[simp] theorem State.laneWord_eq (l : Fin 4) (w : Fin 16) : s.laneWord l w = s.lanes[l][w] := rfl

end Sys2Proof.Machine
end

