-- ==== Sys2Proof/Laws/Ops.lean ====
section
/-! SUPPORT. Everything the shared operations over the command port can do, said once: which response word each status
gives, and that ending a command only appends its response. -/

namespace Sys2Proof.Machine

theorem respond_eq (st : Status) (detail want : Byte) (R : List Byte) (s : State) :
    respond st detail want R s = .next (s.pushResponse ⟨responseWord st detail want, R⟩) := rfl

theorem raise_eq (e : Status) (detail want : Byte) (s : State) :
    raise e detail want s = .next (s.pushResponse ⟨responseWord e detail want, []⟩) := rfl

/-! ## Response words -/

@[simp] theorem responseWord_ok : responseWord .ok 0#8 0#8 = 0#32 := by decide

@[simp] theorem responseWord_notSeeded : responseWord .notSeeded 0#8 0#8 = 0x00000004#32 := by decide

@[simp] theorem responseWord_exhausted : responseWord .exhausted 0#8 0#8 = 0x00000005#32 := by decide

@[simp] theorem responseWord_reservedOpcode :
    responseWord .illegal (decodeErrorDetail .reservedOpcode) 0 = 0x00000103 := by decide

@[simp] theorem responseWord_reservedBit :
    responseWord .illegal (decodeErrorDetail .reservedBit) 0 = 0x00000203 := by decide

@[simp] theorem responseWord_operandLength :
    responseWord .illegal (decodeErrorDetail .operandLength) 0 = 0x00000303 := by decide

theorem responseWord_status (st : Status) (detail want : Byte) :
    (responseWord st detail want).extractLsb' 0 8 = statusCode st := by
  ext i hi
  have h2 : i < 16 := by omega
  simp [responseWord, hi, h2]
  omega

theorem responseWord_detail (st : Status) (detail want : Byte) :
    (responseWord st detail want).extractLsb' 8 8 = detail := by
  ext i hi
  have h2 : 8 + i < 16 := by omega
  have h3 : 8 + i < 32 := by omega
  simp [responseWord, hi, h2, h3]

theorem responseWord_want (st : Status) (detail want : Byte) :
    (responseWord st detail want).extractLsb' 16 8 = want := by
  ext i hi
  have h1 : 8 ≤ 16 + i - 8 := by omega
  have h3 : 16 + i < 32 := by omega
  have h4 : ∀ v : Byte, v.getLsbD (16 + i) = false := fun v => BitVec.getLsbD_of_ge v _ (by omega)
  simp [responseWord, hi, h1, h3, h4]

/-- Only OK has status byte 0. -/
theorem responseWord_status_eq_zero (st : Status) (detail want : Byte) :
    (responseWord st detail want).extractLsb' 0 8 = 0 ↔ st = .ok := by
  rw [responseWord_status]
  cases st <;> simp [statusCode]

/-! ## The cursor -/

theorem wordIndex_eq_none (i : Fin 17) : wordIndex i = none ↔ i.val = 16 := by
  simp only [wordIndex]
  split <;> simp <;> omega

theorem wordIndex_eq_some (i : Fin 17) (j : Fin 16) : wordIndex i = some j ↔ i.val = j.val := by
  simp only [wordIndex]
  split
  · simp [Fin.ext_iff]
  · simp; omega

@[simp] theorem idxAfter_true (i : Fin 16) : idxAfter i true = i.castSucc := rfl

@[simp] theorem idxAfter_false (i : Fin 16) : idxAfter i false = i.succ := rfl

end Sys2Proof.Machine
end

