-- ==== Sys2Proof/Laws/Exec.lean ====
section
/-! SUPPORT. What each meaning can do, said once. Every one ends in a next state that answers once and leaves the port's
remaining events alone. -/

namespace Sys2Proof.Machine

/-- R120: the three ways INIT's checks end. -/
theorem buildState_cases (key nonce : List Byte) (counter : Word) :
    (key.length ≠ 32 ∧ buildState key nonce counter = .error (.keySize key.length 32)) ∨
    (key.length = 32 ∧ nonce.length ≠ 12 ∧ buildState key nonce counter = .error (.nonceSize nonce.length 12)) ∨
    (key.length = 32 ∧ nonce.length = 12 ∧
      buildState key nonce counter = .ok (initState (keyAt key) (nonceAt nonce) counter)) := by
  unfold buildState
  split
  · exact .inl ⟨‹_›, rfl⟩
  · split
    · exact .inr (.inl ⟨by omega, ‹_›, rfl⟩)
    · exact .inr (.inr ⟨by omega, by omega, rfl⟩)

/-- R162: the three ways NEXT ends. -/
theorem execNext_cases (s : State) :
    (s.genValid = false ∧ execNext s = raise .notSeeded 0 0 s) ∨
    (s.genValid = true ∧ s.idx.val = 16 ∧ execNext s = raise .exhausted 0 0 s) ∨
    (∃ i : Fin 16, s.genValid = true ∧ s.idx.val = i.val ∧
      execNext s = respond .ok 0 0 (bytesLe64 (s.outputAt i)) (s.advance i)) := by
  unfold execNext
  split
  · exact .inl ⟨‹_›, rfl⟩
  · have hg : s.genValid = true := by simpa using ‹¬ s.genValid = false›
    split
    · exact .inr (.inl ⟨hg, (wordIndex_eq_none _).1 ‹_›, rfl⟩)
    · exact .inr (.inr ⟨_, hg, (wordIndex_eq_some _ _).1 ‹_›, rfl⟩)

/-- What an instruction does to the architectural state, said once: nothing; or it is a SEED and builds a fresh generator;
or it is a NEXT that answers from index `j` and moves the cursor past it. -/
theorem exec_generator_cases (i : Instr) (s t : State) (h : exec i s = .next t) :
    (t.lanes = s.lanes ∧ t.idx = s.idx ∧ t.flip = s.flip ∧ t.genValid = s.genValid) ∨
    (∃ K, i = .seed K ∧ t.lanes = seedLanes K ∧ t.idx = 0 ∧ t.flip = true ∧ t.genValid = true) ∨
    (i = .next ∧ s.genValid = true ∧ ∃ j : Fin 16, s.idx.val = j.val ∧ t.lanes = s.lanes ∧
      t.idx = idxAfter j s.flip ∧ t.flip = flipAfter s.flip ∧ t.genValid = true) := by
  cases i with
  | qr a b c d => cases h; exact .inl ⟨rfl, rfl, rfl, rfl⟩
  | dround S => cases h; exact .inl ⟨rfl, rfl, rfl, rfl⟩
  | init key nonce counter =>
    simp only [exec, execInit] at h
    rcases buildState_cases key nonce counter with ⟨_, hb⟩ | ⟨_, _, hb⟩ | ⟨_, _, hb⟩ <;> rw [hb] at h <;> cases h <;>
      exact .inl ⟨rfl, rfl, rfl, rfl⟩
  | lane key counter => cases h; exact .inl ⟨rfl, rfl, rfl, rfl⟩
  | seed key => cases h; exact .inr (.inl ⟨key, rfl, rfl, rfl, rfl, rfl⟩)
  | next =>
    simp only [exec] at h
    rcases execNext_cases s with ⟨_, hn⟩ | ⟨_, _, hn⟩ | ⟨j, hg, hj, hn⟩ <;> rw [hn] at h <;> cases h
    · exact .inl ⟨rfl, rfl, rfl, rfl⟩
    · exact .inl ⟨rfl, rfl, rfl, rfl⟩
    · exact .inr (.inr ⟨rfl, hg, j, hj, rfl, rfl, rfl, hg⟩)

/-- An outcome is a next state that appends one response to `s` and leaves what is pending and the reset count. -/
def AnswersOnce (s : State) (o : Result) : Prop :=
  ∃ t r, o = .next t ∧ t.responses = s.responses ++ [r] ∧ t.pending = s.pending ∧ t.resets = s.resets

theorem answersOnce_respond (s : State) (st : Status) (detail want : Byte) (R : List Byte) (u : State)
    (hr : u.responses = s.responses) (hp : u.pending = s.pending) (hn : u.resets = s.resets) :
    AnswersOnce s (respond st detail want R u) :=
  ⟨_, ⟨responseWord st detail want, R⟩, rfl, by simp [hr], by simp [hp], by simp [hn]⟩

theorem answersOnce_raise (s : State) (e : Status) (detail want : Byte) : AnswersOnce s (raise e detail want s) :=
  answersOnce_respond s e detail want [] s rfl rfl rfl

theorem exec_answersOnce (i : Instr) (s : State) : AnswersOnce s (exec i s) := by
  cases i with
  | qr a b c d => exact answersOnce_respond s _ _ _ _ s rfl rfl rfl
  | dround S => exact answersOnce_respond s _ _ _ _ s rfl rfl rfl
  | init key nonce counter =>
    simp only [exec, execInit]
    rcases buildState_cases key nonce counter with ⟨_, h⟩ | ⟨_, _, h⟩ | ⟨_, _, h⟩ <;> rw [h]
    · exact answersOnce_raise s _ _ _
    · exact answersOnce_raise s _ _ _
    · exact answersOnce_respond s _ _ _ _ s rfl rfl rfl
  | lane key counter => exact answersOnce_respond s _ _ _ _ s rfl rfl rfl
  | seed key => exact answersOnce_respond s _ _ _ _ _ rfl rfl rfl
  | next =>
    simp only [exec]
    rcases execNext_cases s with ⟨_, h⟩ | ⟨_, _, h⟩ | ⟨i, _, _, h⟩ <;> rw [h]
    · exact answersOnce_raise s _ _ _
    · exact answersOnce_raise s _ _ _
    · exact answersOnce_respond s _ _ _ _ _ rfl rfl rfl

end Sys2Proof.Machine
end

