-- ==== Sys2Proof/Laws/PerInstr.lean ====
section
/-! SUPPORT. Laws over instructions as syntax, one lemma per constructor. -/

namespace Sys2Proof

/-- The opcode of an instruction's row. -/
def Instr.opcode : Instr → Opcode
  | .qr _ _ _ _ => .qr
  | .dround _ => .dround
  | .init _ _ _ => .init
  | .lane _ _ => .lane
  | .seed _ => .seed
  | .next => .next

/-- Above bit 1 the opcode 0x3 is zero. -/
theorem initOpcode_high (j : Nat) (h : j < 32) (h2 : 2 ≤ j) : (3#32)[j] = false := by
  have all : ∀ j : Fin 32, 2 ≤ j.val → (3#32).getLsbD j.val = false := by decide
  exact all ⟨j, h⟩ h2

/-- INIT's reserved bits are none of `cw[23:8]`. -/
theorem initMask_fields (j : Nat) (h : j < 32) (h8 : 8 ≤ j) (h24 : j < 24) : (0xFF0000F0#32)[j] = false := by
  have all : ∀ j : Fin 32, 8 ≤ j.val → j.val < 24 → (0xFF0000F0#32).getLsbD j.val = false := by decide
  exact all ⟨j, h⟩ h8 h24

/-- The length fields of INIT's command word are the lengths put into it. -/
theorem keyLen_initWord (k n : Nat) (hk : k ≤ 255) : keyLen (initWord k n) = k := by
  have h : (initWord k n).extractLsb' 8 8 = BitVec.ofNat 8 k := by
    ext i hi
    have h1 : 8 + i < 16 := by omega
    have h2 : 8 + i < 32 := by omega
    have h3 := initOpcode_high (8 + i) h2 (by omega)
    simp [initWord, hi, h1, h2, h3]
  simp only [keyLen, h, BitVec.toNat_ofNat]
  omega

theorem nonceLen_initWord (k n : Nat) (hn : n ≤ 255) : nonceLen (initWord k n) = n := by
  have h : (initWord k n).extractLsb' 16 8 = BitVec.ofNat 8 n := by
    ext i hi
    have h1 : 8 ≤ 16 + i - 8 := by omega
    have h2 : 16 + i < 32 := by omega
    have h3 := initOpcode_high (16 + i) h2 (by omega)
    simp [initWord, hi, h1, h2, h3]
  simp only [nonceLen, h, BitVec.toNat_ofNat]
  omega

/-- INIT's command word has no reserved bit set, whatever the lengths. -/
theorem initWord_reserved (k n : Nat) : initWord k n &&& 0xFF0000F0#32 = 0#32 := by
  ext i hi
  by_cases h1 : i < 8
  · have : i = 0 ∨ i = 1 ∨ i = 2 ∨ i = 3 ∨ i = 4 ∨ i = 5 ∨ i = 6 ∨ i = 7 := by omega
    rcases this with h | h | h | h | h | h | h | h <;> subst h <;> simp [initWord]
  · by_cases h2 : i < 24
    · simp [initMask_fields i hi (by omega) h2]
    · have h3 := initOpcode_high i hi (by omega)
      have h4 : ∀ v : Byte, v.getLsbD (i - 8) = false := fun v => BitVec.getLsbD_of_ge v _ (by omega)
      have h5 : ∀ v : Byte, v.getLsbD (i - 16) = false := fun v => BitVec.getLsbD_of_ge v _ (by omega)
      simp [initWord, h3, h4, h5]

theorem opcodeField_initWord (k n : Nat) : opcodeField (initWord k n) = 3#4 := by
  ext i hi
  have : i = 0 ∨ i = 1 ∨ i = 2 ∨ i = 3 := by omega
  rcases this with h | h | h | h <;> subst h <;> simp [opcodeField, initWord]

namespace Laws.EncodedHeader

/-- The encoding of a well-formed instruction names its own opcode, has its reserved bits zero and carries an operand
block of the one length its command word requires (R62, R64, R65). -/
def Statement (i : Instr) : Prop :=
  i.wf = true →
    opcodeOf (opcodeField (encode i).word) = some i.opcode ∧
    (encode i).word &&& reservedMask i.opcode = 0 ∧
    (encode i).operands.length = need i.opcode (encode i).word

theorem qr (a b c d : Word) : Statement (.qr a b c d) :=
  fun _ => ⟨rfl, (by decide : 0x00000001#32 &&& 0xFFFFFFF0#32 = 0#32), rfl⟩

theorem dround (S : Block) : Statement (.dround S) :=
  fun _ => ⟨rfl, (by decide : 0x00000002#32 &&& 0xFFFFFFF0#32 = 0#32), blockBytes_length S⟩

theorem init (key nonce : List Byte) (counter : Word) : Statement (.init key nonce counter) := by
  intro h
  obtain ⟨hk, hn⟩ : key.length ≤ 255 ∧ nonce.length ≤ 255 := by simpa [Instr.wf, lengthFits] using h
  refine ⟨?_, initWord_reserved _ _, ?_⟩
  · simp only [encode, opcodeField_initWord, Instr.opcode]
    rfl
  · simp only [encode, Instr.opcode, need, keyLen_initWord _ _ hk, nonceLen_initWord _ _ hn, List.length_append,
      bytesLe_length]

theorem lane (key : Key) (counter : Word) : Statement (.lane key counter) :=
  fun _ => ⟨rfl, (by decide : 0x00000004#32 &&& 0xFFFFFFF0#32 = 0#32), by simp [encode, Instr.opcode, need]⟩

theorem seed (key : Key) : Statement (.seed key) :=
  fun _ => ⟨rfl, (by decide : 0x00000005#32 &&& 0xFFFFFFF0#32 = 0#32), by simp [encode, Instr.opcode, need]⟩

theorem next : Statement .next := fun _ => ⟨rfl, rfl, rfl⟩

end Laws.EncodedHeader

end Sys2Proof
end

