-- ==== Sys2Proof/Laws/Rounds.lean ====
section
/-! SUPPORT. What one quarter round does to a state word by word, so that a round is read without unfolding its
updates, and which words the feed-forward changes. -/

namespace Sys2Proof.Machine

/-- The four indexes of a group are four different words. -/
def Group.distinct (g : Group) : Prop :=
  g.ia ≠ g.ib ∧ g.ia ≠ g.ic ∧ g.ia ≠ g.id ∧ g.ib ≠ g.ic ∧ g.ib ≠ g.id ∧ g.ic ≠ g.id

/-- The quarter round of a group's words. -/
def Group.quad (g : Group) (S : Block) : Quad :=
  qr ⟨S[g.ia], S[g.ib], S[g.ic], S[g.id]⟩

/-- Each group's word becomes its place in the quarter round; every other word stays. -/
theorem qrAt_get (S : Block) (g : Group) (h : g.distinct) (w : Fin 16) :
    (qrAt S g)[w] =
      if w = g.ia then (g.quad S).a else if w = g.ib then (g.quad S).b
      else if w = g.ic then (g.quad S).c else if w = g.id then (g.quad S).d else S[w] := by
  obtain ⟨h1, h2, h3, h4, h5, h6⟩ := h
  simp only [qrAt, Group.quad, Fin.getElem_fin, Vector.getElem_set, ← Fin.ext_iff, eq_comm (b := w)]
  by_cases ha : w = g.ia
  · subst ha; simp [h1, h2, h3]
  by_cases hb : w = g.ib
  · subst hb; simp [h4, h5, ha]
  by_cases hc : w = g.ic
  · subst hc; simp [h6, ha, hb]
  by_cases hd : w = g.id
  · subst hd; simp [ha, hb, hc]
  simp [ha, hb, hc, hd]

/-- A word outside the group stays. -/
theorem qrAt_get_other (S : Block) (g : Group) (h : g.distinct) (w : Fin 16)
    (ha : w ≠ g.ia) (hb : w ≠ g.ib) (hc : w ≠ g.ic) (hd : w ≠ g.id) : (qrAt S g)[w] = S[w] := by
  simp [qrAt_get S g h, ha, hb, hc, hd]

theorem columnGroups_distinct : ∀ g ∈ columnGroups, g.distinct := by
  simp only [columnGroups, Group.distinct]; decide

theorem diagonalGroups_distinct : ∀ g ∈ diagonalGroups, g.distinct := by
  simp only [diagonalGroups, Group.distinct]; decide

theorem feedForward_get (S0 W : Block) (w : Fin 16) :
    (feedForward S0 W)[w] = if 4 ≤ w.val ∧ w.val ≤ 11 then W[w] + S0[w] else W[w] := by
  simp [feedForward]

end Sys2Proof.Machine
end

