-- ==== Sys2Proof/Laws/Step.lean ====
section
/-! SUPPORT. What a step can do, said once: idle, take a reset, or answer the next command. -/

namespace Sys2Proof.Machine

theorem step_event (s : State) (e : PortEvent) (rest : List PortEvent) (h : s.pending = e :: rest) :
    step s = serve e (s.withPending rest) := by
  simp [step, h]

/-- The decoder's two answers, as what the block does with a transaction. -/
theorem transact_cases (c : Command) (s : State) :
    (∃ e, decode c = .error e ∧ transact c s = raise .illegal (decodeErrorDetail e) 0 s) ∨
    (∃ i, decode c = .ok i ∧ transact c s = exec i s) := by
  unfold transact
  split
  · exact .inl ⟨_, ‹_›, rfl⟩
  · exact .inr ⟨_, ‹_›, rfl⟩

theorem transact_answersOnce (c : Command) (s : State) : AnswersOnce s (transact c s) := by
  rcases transact_cases c s with ⟨e, _, h⟩ | ⟨i, _, h⟩ <;> rw [h]
  · exact answersOnce_raise s _ _ _
  · exact exec_answersOnce i s

/-- A step always ends in a next state, and which one depends only on the event at the head of the port. -/
theorem step_cases (s : State) :
    (s.pending = [] ∧ step s = .next s) ∨
    (∃ e rest, s.pending = e :: rest ∧ (e = .reset ∨ ∃ c, e = .abort c) ∧
      step s = .next (s.withPending rest).enterReset) ∨
    (∃ c rest, s.pending = .command c :: rest ∧ step s = transact c (s.withPending rest) ∧
      AnswersOnce (s.withPending rest) (step s)) := by
  cases h : s.pending with
  | nil => exact .inl ⟨rfl, by simp [step, h, idle]⟩
  | cons e rest =>
    have hs := step_event s e rest h
    cases e with
    | command c => exact .inr (.inr ⟨c, rest, rfl, hs, by rw [hs]; exact transact_answersOnce c _⟩)
    | reset => exact .inr (.inl ⟨_, rest, rfl, .inl rfl, hs⟩)
    | abort c => exact .inr (.inl ⟨_, rest, rfl, .inr ⟨c, rfl⟩, hs⟩)

/-- A run takes its first step and goes on. -/
theorem run_succ (n : Nat) (s t : State) (h : step s = .next t) : core.run (n + 1) s = core.run n t := by
  have hc : core.step s = .next t := h
  simp only [Host.Core.run, hc]

end Sys2Proof.Machine
end

