-- ==== Sys2Proof/Machine/Assembler.lean ====
section
/-! DEFINITION. The assembler syntax of spec/30_encoding.md R73 and R74: from lines of text to the transactions they
spell. The machine never reads text; this is the spec's notation for what the host sends. Text is a list of characters.
What R73 leaves open (spacing, letter case of hexadecimal digits, how many digits a word may have) is log entry 7. -/

namespace Sys2Proof.Machine

/-- What one line says, once its comment is cut off. -/
inductive AsmLine where
  /-- Nothing, or only a comment. -/
  | blank
  /-- One of the six mnemonics with its operands. -/
  | instr (i : Instr)
  /-- `.word <cw>` (R74), to be followed by a `.bytes` line. -/
  | rawWord (cw : Word)
  /-- `.bytes <hex>` (R74). -/
  | rawBytes (B : List Byte)
  deriving DecidableEq, Repr

/-! ## Characters -/

/-- A space or a tab. -/
def isSpace (c : Char) : Bool :=
  c == ' ' || c == '\t'

/-- The text without the spaces around it. -/
def trimSpaces (l : List Char) : List Char :=
  ((l.dropWhile isSpace).reverse.dropWhile isSpace).reverse

/-- R73: "with `;` starting a comment". -/
def cutComment (l : List Char) : List Char :=
  l.takeWhile (fun c => c != ';')

/-- The pieces between the separators `sep`. -/
def splitAtSep (sep : Char) : List Char → List (List Char)
  | [] => [[]]
  | c :: cs =>
    match splitAtSep sep cs with
    | [] => [[c]]
    | piece :: pieces => if c == sep then [] :: piece :: pieces else (c :: piece) :: pieces

/-- The value of a hexadecimal digit. -/
def hexDigit (c : Char) : Option Nat :=
  if '0' ≤ c ∧ c ≤ '9' then some (c.toNat - 48)
  else if 'a' ≤ c ∧ c ≤ 'f' then some (c.toNat - 87)
  else if 'A' ≤ c ∧ c ≤ 'F' then some (c.toNat - 55)
  else none

/-- The value of a row of hexadecimal digits, the most significant first, after `acc`. -/
def hexNumber (acc : Nat) : List Char → Option Nat
  | [] => some acc
  | c :: cs =>
    match hexDigit c with
    | none => none
    | some d => hexNumber (16 * acc + d) cs

/-! ## Operands -/

/-- R73: "Words are hexadecimal with `0x`". -/
def wordOperand : List Char → Option Word
  | '0' :: 'x' :: digits =>
    if digits.isEmpty || decide (8 < digits.length) then none
    else (hexNumber 0 digits).map (BitVec.ofNat 32)
  | _ => none

/-- R73: "Byte strings are written as hexadecimal pairs with no separator, first byte first." -/
def bytesOperand : List Char → Option (List Byte)
  | [] => some []
  | [_] => none
  | hi :: lo :: rest =>
    match hexDigit hi, hexDigit lo, bytesOperand rest with
    | some h, some l, some B => some (BitVec.ofNat 8 (16 * h + l) :: B)
    | _, _, _ => none

/-- Every operand of a list is a word. -/
def wordOperands : List (List Char) → Option (List Word)
  | [] => some []
  | o :: os =>
    match wordOperand o, wordOperands os with
    | some w, some ws => some (w :: ws)
    | _, _ => none

/-- The comma-separated operands after a mnemonic; none where nothing follows it. -/
def operandsOf (l : List Char) : List (List Char) :=
  if (trimSpaces l).isEmpty then [] else (splitAtSep ',' l).map trimSpaces

/-- `init <key bytes>, <nonce bytes>, <counter>`: byte strings of "any length from 0 to 255". -/
def asmInit (key nonce : List Byte) (counter : Word) : Option Instr :=
  if lengthFits key && lengthFits nonce then some (.init key nonce counter) else none

/-- `lane <key bytes (32)>, <counter>`. -/
def asmLane (key : List Byte) (counter : Word) : Option Instr :=
  if key.length = 32 then some (.lane (keyAt key) counter) else none

/-- `seed <seed bytes (32)>`. -/
def asmSeed (key : List Byte) : Option Instr :=
  if key.length = 32 then some (.seed (keyAt key)) else none

/-- `dround <s0>, <s1>, ..., <s15>`. -/
def asmDround (words : List Word) : Option Instr :=
  if words.length = 16 then some (.dround (Vector.ofFn fun w => words.getD w.val 0)) else none

/-! ## Lines -/

/-- R73, R74: a mnemonic and its operands. Reserved opcodes have no mnemonic, and there are no pseudo-instructions. -/
def assembleWords (mnemonic : List Char) (operands : List (List Char)) : Option AsmLine :=
  if mnemonic = ['q', 'r'] then
    match wordOperands operands with
    | some [a, b, c, d] => some (.instr (.qr a b c d))
    | _ => none
  else if mnemonic = ['d', 'r', 'o', 'u', 'n', 'd'] then
    ((wordOperands operands).bind asmDround).map .instr
  else if mnemonic = ['i', 'n', 'i', 't'] then
    match operands with
    | [k, n, c] =>
      match bytesOperand k, bytesOperand n, wordOperand c with
      | some key, some nonce, some counter => (asmInit key nonce counter).map .instr
      | _, _, _ => none
    | _ => none
  else if mnemonic = ['l', 'a', 'n', 'e'] then
    match operands with
    | [k, c] =>
      match bytesOperand k, wordOperand c with
      | some key, some counter => (asmLane key counter).map .instr
      | _, _ => none
    | _ => none
  else if mnemonic = ['s', 'e', 'e', 'd'] then
    match operands with
    | [k] => ((bytesOperand k).bind asmSeed).map .instr
    | _ => none
  else if mnemonic = ['n', 'e', 'x', 't'] then
    match operands with
    | [] => some (.instr .next)
    | _ => none
  else if mnemonic = ['.', 'w', 'o', 'r', 'd'] then
    match operands with
    | [w] => (wordOperand w).map .rawWord
    | _ => none
  else if mnemonic = ['.', 'b', 'y', 't', 'e', 's'] then
    match operands with
    | [] => some (.rawBytes [])
    | [b] => (bytesOperand b).map .rawBytes
    | _ => none
  else none

/-- R73: "one command per line, a mnemonic then its operands". -/
def assembleLine (l : List Char) : Option AsmLine :=
  let text := trimSpaces (cutComment l)
  if text.isEmpty then some .blank
  else assembleWords (text.takeWhile fun c => !isSpace c) (operandsOf (text.dropWhile fun c => !isSpace c))

/-- The transactions that a list of lines spells: an instruction is its encoding, and a `.word` line and the `.bytes`
line after it are a transaction as they stand (R74). -/
def assembleLines : List AsmLine → Option (List Command)
  | [] => some []
  | .blank :: ls => assembleLines ls
  | .instr i :: ls => (assembleLines ls).map (encode i :: ·)
  | .rawWord cw :: .rawBytes B :: ls => (assembleLines ls).map (⟨cw, B⟩ :: ·)
  | .rawWord _ :: _ => none
  | .rawBytes _ :: _ => none

/-- The transactions that a text spells, one line after another; none where some line is no line of R73 or R74. -/
def assemble (text : List (List Char)) : Option (List Command) :=
  (text.mapM assembleLine).bind fun ls => assembleLines (ls.filter fun l => l != .blank)

end Sys2Proof.Machine
end

