-- ==== Sys2Proof/Tests/Slice0.lean ====
section
/-! SUPPORT. Tests of the model on the spec's own vectors (spec/95_test_vectors.md, named V-… below), and for every
statement with hypotheses a state and operands that meet them. -/

namespace Sys2Proof.Tests

open Sys2Proof.Machine Sys2Proof.Safety

/-! ## Small states -/

/-- A lane file whose word `w` of lane `l` is `16 l + w`. -/
def numberedLanes : Vector Block 4 :=
  Vector.ofFn fun l => Vector.ofFn fun w => BitVec.ofNat 32 (16 * l.val + w.val)

/-- A block with the numbered lane file, an empty port and no response yet. -/
def block (genValid : Bool) (idx : Fin 17) (flip : Bool) : State :=
  { lanes := numberedLanes, idx, flip, genValid, pending := [], responses := [], resets := 0 }

/-- A block that was seeded with the zero key. -/
def seeded (idx : Fin 17) (flip : Bool) : State :=
  { block true idx flip with lanes := seedLanes (Vector.replicate 32 0) }

/-- The same block with these events at its port. -/
def facing (s : State) (events : List PortEvent) : State :=
  { s with pending := events }

/-- The responses after one step. -/
def responsesAfter (s : State) : List Response :=
  match step s with
  | .next t => t.responses
  | .fault _ => []
  | .refused _ => []

/-- GEN_VALID, IDX and FLIP after one step. -/
def cursorAfter (s : State) : Bool × Fin 17 × Bool :=
  match step s with
  | .next t => (t.genValid, t.idx, t.flip)
  | .fault _ => (false, 0, false)
  | .refused _ => (false, 0, false)

/-- The bytes 0, 1, 2, … of the spec's vectors. -/
def countingBytes (n : Nat) : List Byte :=
  (List.range n).map (BitVec.ofNat 8)

/-- The key 00..1f of the spec's vectors. -/
def countingKey : Key :=
  Vector.ofFn fun i => BitVec.ofNat 8 i.val

/-! ## Well-formedness refuses what cannot be sent (U10) -/

theorem test_wf_refuses_long_key : (Instr.init (List.replicate 256 0) [] 0).wf = false := by decide +kernel

theorem test_wf_refuses_long_nonce : (Instr.init [] (List.replicate 256 0) 0).wf = false := by decide +kernel

theorem test_wf_accepts_longest : (Instr.init (List.replicate 255 0) (List.replicate 255 0) 0).wf = true := by decide +kernel

/-! ## Decoding, words written out from R61, R62 and R66 -/

theorem test_decode_qr :
    decode ⟨0x00000001, [0x11, 0x11, 0x11, 0x11, 0x04, 0x03, 0x02, 0x01, 0x43, 0x6f, 0x8d, 0x9b, 0x67, 0x45, 0x23, 0x01]⟩
      = .ok (.qr 0x11111111 0x01020304 0x9b8d6f43 0x01234567) := by decide

theorem test_decode_dround : decode ⟨0x00000002, countingBytes 64⟩ = .ok (.dround
    #v[0x03020100, 0x07060504, 0x0b0a0908, 0x0f0e0d0c, 0x13121110, 0x17161514, 0x1b1a1918, 0x1f1e1d1c,
       0x23222120, 0x27262524, 0x2b2a2928, 0x2f2e2d2c, 0x33323130, 0x37363534, 0x3b3a3938, 0x3f3e3d3c]) := by decide +kernel

/-- V-IN-2. -/
theorem test_decode_init :
    decode ⟨0x000C2003, countingBytes 32 ++ countingBytes 12 ++ [0x04, 0x03, 0x02, 0x01]⟩
      = .ok (.init (countingBytes 32) (countingBytes 12) 0x01020304) := by decide +kernel

theorem test_decode_lane :
    decode ⟨0x00000004, countingBytes 32 ++ [0x03, 0x00, 0x00, 0x80]⟩ = .ok (.lane countingKey 0x80000003) := by
  decide +kernel

theorem test_decode_seed : decode ⟨0x00000005, countingBytes 32⟩ = .ok (.seed countingKey) := by decide +kernel

theorem test_decode_next : decode ⟨0x00000006, []⟩ = .ok .next := by decide

/-- V-DEC-1 to V-DEC-4. -/
theorem test_decode_reserved_opcodes :
    (([0x00000000, 0x00000007, 0x0000000f, 0xfffffff0] : List Word).map fun cw => decode ⟨cw, []⟩)
      = List.replicate 4 (.error .reservedOpcode) := by decide

/-- V-DEC-5, V-DEC-10, V-DEC-11, V-IN-9, V-IN-10, V-NX-4. -/
theorem test_decode_reserved_bits :
    (([(0x00000011, 16), (0x80000005, 31), (0x00002005, 32), (0x000C2013, 48), (0x010C2003, 48), (0x00000106, 0)]
      : List (Word × Nat)).map fun p => decode ⟨p.1, List.replicate p.2 0⟩)
      = List.replicate 6 (.error .reservedBit) := by decide

/-- V-DEC-6 to V-DEC-9, V-IN-8, V-NX-3. -/
theorem test_decode_operand_lengths :
    (([(0x00000001, 15), (0x00000002, 63), (0x00000004, 32), (0x00000005, 36), (0x000C2003, 47), (0x00000006, 1)]
      : List (Word × Nat)).map fun p => decode ⟨p.1, List.replicate p.2 0⟩)
      = List.replicate 6 (.error .operandLength) := by decide

/-- R125: `0x000C2003` is the well-formed INIT. -/
theorem test_encode_init_word : (encode (.init (countingBytes 32) (countingBytes 12) 0)).word = 0x000C2003 := by decide

/-- The host's numbering: operand byte 0 of a QR is bits 39..32. -/
theorem test_table_word_with_operands :
    decodeTableWord 64 0x0123456700000001 = some (.qr 0x01234567 0 0 0) := by decide

/-! ## QR -/

/-- V-QR-1, byte form. -/
theorem test_qr_rfc_vector :
    responsesAfter (facing (block false 0 true) [send (.qr 0x11111111 0x01020304 0x9b8d6f43 0x01234567)])
      = [⟨0x00000000, [0xf4, 0x92, 0x2a, 0xea, 0xce, 0xf8, 0x1c, 0xcb, 0x2e, 0x47, 0x81, 0x45, 0xbb, 0xc4, 0x81, 0x58]⟩] := by
  decide +kernel

/-- V-QR-5. -/
theorem test_qr_all_ones :
    qr ⟨0xffffffff, 0xffffffff, 0xffffffff, 0xffffffff⟩ = ⟨0xf0000ffd, 0x88790878, 0x0110fdef, 0x010ffdf0⟩ := by
  decide +kernel

/-! ## DROUND -/

/-- V-DR-3. -/
theorem test_dround_vector :
    doubleRound #v[0x61707865, 0x3320646e, 0x79622d32, 0x6b206574, 0x03020100, 0x07060504, 0x0b0a0908, 0x0f0e0d0c,
        0x13121110, 0x17161514, 0x1b1a1918, 0x1f1e1d1c, 0x01020304, 0x03020100, 0x07060504, 0x0b0a0908]
      = #v[0x3c8acff4, 0xf5d49e32, 0x821e68a6, 0x06147905, 0x7b5c7876, 0x82b9735e, 0xa237f6de, 0x5c17f72c,
        0xa90eb37f, 0x1ea2b2d4, 0x92afc8a1, 0x5ca35d65, 0x7f0638a2, 0x7d50c890, 0x6b909c8d, 0x5e285ed7] := by
  decide +kernel

/-- V-DR-5. -/
theorem test_perm8_vector :
    perm8 (initState countingKey zeroNonce 0)
      = #v[0x2e419cdb, 0x378aae00, 0x0204bba7, 0xc7f25fbd, 0x24158ef7, 0x48d3ad8c, 0xcc24622a, 0xbcb0aff3,
        0x239b8def, 0x24b8744b, 0xa13b2757, 0xde728059, 0x271d838f, 0x93dfb0c7, 0x82edb9b3, 0xd656a238] := by
  decide +kernel

/-! ## INIT -/

/-- V-IN-2. -/
theorem test_init_vector :
    (responsesAfter (facing (block false 0 true)
        [send (.init (countingBytes 32) (countingBytes 12) 0x01020304)])).map (fun r => (r.word, blockAt r.result))
      = [(0x00000000, #v[0x61707865, 0x3320646e, 0x79622d32, 0x6b206574, 0x03020100, 0x07060504, 0x0b0a0908, 0x0f0e0d0c,
          0x13121110, 0x17161514, 0x1b1a1918, 0x1f1e1d1c, 0x01020304, 0x03020100, 0x07060504, 0x0b0a0908])] := by
  decide +kernel

/-- V-IN-3 to V-IN-7. -/
theorem test_init_errors :
    (([(0x000C1F03, 47), (0x000B2003, 47), (0x000D0003, 17), (0x000C2103, 49), (0x00FFFF03, 514)] : List (Word × Nat)).map
        fun p => responsesAfter (facing (block true 3 false) [.command ⟨p.1, List.replicate p.2 0⟩]))
      = [[⟨0x00201f01, []⟩], [⟨0x000c0b02, []⟩], [⟨0x00200001, []⟩], [⟨0x00202101, []⟩], [⟨0x0020ff01, []⟩]] := by
  decide +kernel

/-! ## LANE -/

/-- V-LA-5: a nonzero key, so the feed-forward shows. -/
theorem test_lane_vector :
    deriveLane countingKey 0
      = #v[0x2e419cdb, 0x378aae00, 0x0204bba7, 0xc7f25fbd, 0x27178ff7, 0x4fd9b290, 0xd72e6b32, 0xcbbebcff,
        0x36ad9eff, 0x3bce895f, 0xbc55406f, 0xfd909d75, 0x271d838f, 0x93dfb0c7, 0x82edb9b3, 0xd656a238] := by
  decide +kernel

/-- V-LA-9: the largest counter, sent as a command. -/
theorem test_lane_largest_counter :
    (responsesAfter (facing (block false 0 true)
        [send (.lane (Vector.replicate 32 0) 0xffffffff)])).map (fun r => (r.word, blockAt r.result))
      = [(0x00000000, #v[0xd64729cf, 0xb8f8b907, 0xb208f8ae, 0x8b170d44, 0x2bc08881, 0x31dca610, 0x5d4e9d93, 0xbbd39b31,
          0x960b28ee, 0xc167d58a, 0x9f0803f1, 0xd146734f, 0xc6dea5ff, 0x6c90af0d, 0x9b884e3c, 0x49009ec4])] := by
  decide +kernel

/-! ## SEED -/

/-- V-SN-1, from an exhausted generator: word 0 of each lane. -/
theorem test_seed_lanes :
    (match step (facing (block true 16 true) [send (.seed (Vector.replicate 32 0))]) with
      | .next t => t.lanes.toList.map fun L => L[0]
      | .fault _ => []
      | .refused _ => [])
      = [0xce7e87d9, 0xac8a366d, 0x9e416f1a, 0x6bc727c6] := by decide +kernel

/-- V-SN-1: the cursor and the response. -/
theorem test_seed_cursor :
    cursorAfter (facing (block true 16 true) [send (.seed countingKey)]) = (true, 0, true) ∧
    responsesAfter (facing (block true 16 true) [send (.seed countingKey)]) = [⟨0x00000000, []⟩] := by decide +kernel

/-! ## NEXT -/

/-- V-NX-1, k = 0 and k = 31: the first output and the last, which carries words without feed-forward (C1). -/
theorem test_next_outputs :
    responsesAfter (facing (seeded 0 true) [send .next]) = [⟨0x00000000, [0xd9, 0x87, 0x7e, 0xce, 0x6d, 0x36, 0x8a, 0xac]⟩] ∧
    responsesAfter (facing (seeded 15 false) [send .next]) = [⟨0x00000000, [0xba, 0x34, 0x0a, 0xf9, 0x62, 0x79, 0xbf, 0x01]⟩] := by
  decide +kernel

/-- V-NX-1's cursor column at k = 0 and k = 31, the 33rd NEXT, and V-NX-2. -/
theorem test_next_cursor :
    cursorAfter (facing (block true 0 true) [send .next]) = (true, 0, false) ∧
    cursorAfter (facing (block true 15 false) [send .next]) = (true, 16, true) ∧
    responsesAfter (facing (block true 16 true) [send .next]) = [⟨0x00000005, []⟩] ∧
    responsesAfter (State.reset.withFetchWord 32 6) = [⟨0x00000004, []⟩] := by decide +kernel

/-! ## Reset and the assembler -/

/-- R243: a SEED aborted by a reset leaves no generator and no response. -/
theorem test_abort :
    cursorAfter (facing (block true 5 false) [.abort (encode (.seed countingKey))]) = (false, 0, true) ∧
    responsesAfter (facing (block true 5 false) [.abort (encode (.seed countingKey))]) = [] := by decide

/-- P1 and P2 of spec 95 as lines of R73, and V-NX-4 as lines of R74. -/
theorem test_assembler :
    assemble ["qr 0x11111111, 0x01020304, 0x9b8d6f43, 0x01234567 ; V-QR-1".toList, "; nothing".toList, "next".toList,
        ".word 0x00000106".toList, ".bytes".toList]
      = some [⟨0x00000001, [0x11, 0x11, 0x11, 0x11, 0x04, 0x03, 0x02, 0x01, 0x43, 0x6f, 0x8d, 0x9b, 0x67, 0x45, 0x23, 0x01]⟩,
          ⟨0x00000006, []⟩, ⟨0x00000106, []⟩] := by decide

/-- P3 line 2 of spec 95. -/
theorem test_assembler_init :
    (assemble ["init 000102030405060708090a0b0c0d0e0f101112131415161718191a1b1c1d1e, 000000000000000000000000, 0x00000000".toList])
      = some [⟨0x000c1f03, countingBytes 31 ++ List.replicate 16 0⟩] := by decide +kernel

/-! ## Every statement's hypotheses are met -/

theorem witness_DecodeEncodeRoundTrip : (Instr.init (List.replicate 255 0) [] 0).wf = true := by decide +kernel

theorem witness_EncodeDecodeRoundTrip : decode ⟨0x00FFFF03, List.replicate 514 0⟩
    = .ok (.init (List.replicate 255 0) (List.replicate 255 0) 0) := by decide +kernel

theorem witness_OpcodeTableDecidesAcceptance :
    (0x00FFFF03 : Word) &&& (tableRow .init).2 = (tableRow .init).1 := by decide

theorem witness_ReservedOpcodeRefused :
    (0xfffffff0 : Word).toNat % 16 = 0 ∧ 7 ≤ (0x00000007 : Word).toNat % 16 ∧ 7 ≤ (0x0000000f : Word).toNat % 16 := by decide

theorem witness_ReservedBitRefused :
    ((0x00000011 : Word).toNat % 16 ∈ [1, 2, 4, 5, 6] ∧ (0x00000011 : Word).toNat / 2 ^ 4 ≠ 0) ∧
    ((0x80000006 : Word).toNat % 16 ∈ [1, 2, 4, 5, 6] ∧ (0x80000006 : Word).toNat / 2 ^ 4 ≠ 0) ∧
    ((0x01000003 : Word).toNat % 16 = 3 ∧ (0x01000003 : Word).toNat / 2 ^ 24 ≠ 0) ∧
    ((0x00FFFF13 : Word).toNat % 16 = 3 ∧ (0x00FFFF13 : Word).toNat / 2 ^ 4 % 16 ≠ 0) := by decide

/-- Each clause, with a block of the right length and one byte off. -/
theorem witness_OperandLengthDecides :
    (List.replicate 16 (0 : Byte)).length = 16 ∧ (List.replicate 15 (0 : Byte)).length ≠ 16 ∧
    (List.replicate 63 (0 : Byte)).length ≠ 64 ∧ (List.replicate 37 (0 : Byte)).length ≠ 36 ∧
    (List.replicate 33 (0 : Byte)).length ≠ 32 ∧ [(0 : Byte)].length ≠ 0 ∧
    ((0x00000003 : Word).toNat % 2 ^ 8 = 3 ∧ (0x00000003 : Word).toNat < 2 ^ 24 ∧
      4 = (0x00000003 : Word).toNat / 2 ^ 8 % 256 + (0x00000003 : Word).toNat / 2 ^ 16 % 256 + 4) ∧
    ((0x00FFFF03 : Word).toNat % 2 ^ 8 = 3 ∧ (0x00FFFF03 : Word).toNat < 2 ^ 24 ∧
      514 = (0x00FFFF03 : Word).toNat / 2 ^ 8 % 256 + (0x00FFFF03 : Word).toNat / 2 ^ 16 % 256 + 4) := by decide

theorem witness_StepRunsDecodedCommand :
    (facing (block true 0 true) [send .next]).pending = .command (encode .next) :: [] ∧ decode (encode .next) = .ok .next := by
  decide

theorem witness_StepRefusesUndecoded :
    decode ⟨0x00000007, []⟩ = .error .reservedOpcode ∧ decode ⟨0x00000016, []⟩ = .error .reservedBit ∧
    decode ⟨0x00000006, [0]⟩ = .error .operandLength := by decide

theorem witness_IdleStepHoldsState : State.reset.pending = [] := rfl

theorem witness_EveryCommandAnsweredOnce :
    (facing (block false 0 true) [.command ⟨0xffffffff, []⟩, .reset]).pending = .command ⟨0xffffffff, []⟩ :: [.reset] := rfl

theorem witness_EventsServedInOrder :
    (facing (block false 0 true) [.reset, send .next, .abort (encode .next), send .next]).pending
      = [.reset, send .next, .abort (encode .next)] ++ [send .next] := rfl

theorem witness_ErrorsWriteNoState :
    (facing (block false 0 true) [send .next]).pending = .command (encode .next) :: [] ∧
    step (facing (block false 0 true) [send .next]) = .next { block false 0 true with responses := [⟨0x00000004, []⟩] } ∧
    (0x00000004 : Word).extractLsb' 0 8 ≠ 0 := ⟨rfl, rfl, by decide⟩

theorem witness_ResetAbortsWithoutResponse :
    (facing (block true 16 true) [.abort ⟨0, []⟩]).pending = .abort ⟨0, []⟩ :: [] ∧
    (facing (block true 16 true) [.reset]).pending = .reset :: [] := ⟨rfl, rfl⟩

/-- Two unseeded blocks that differ in lanes, IDX and FLIP. -/
theorem witness_UnseededStateNeverObserved :
    (facing (block false 0 true) [send .next]).genValid = false ∧ (facing (seeded 7 false) [send .next]).pending = [send .next] ∧
    { facing (seeded 7 false) [send .next] with genValid := false }.genValid = false ∧
    { facing (seeded 7 false) [send .next] with genValid := false }.responses = [] ∧
    core.run 1 (facing (block false 0 true) [send .next])
      = .next { block false 0 true with responses := [⟨0x00000004, []⟩] } := ⟨rfl, rfl, rfl, rfl, rfl⟩

/-- A seeded block in mid-stream meets the invariant. -/
theorem seeded_inv (i : Fin 17) (h : i.val ≤ 15) (f : Bool) : GeneratorInv (seeded i f) :=
  ⟨fun _ => ⟨_, rfl⟩, fun _ => h, fun h => (by cases h)⟩

theorem witness_StepKeepsGenerator :
    GeneratorInv (facing (seeded 15 false) [.command ⟨0, []⟩]) ∧
    step (facing (seeded 15 false) [.command ⟨0, []⟩]) = .next { seeded 15 false with responses := [⟨0x00000103, []⟩] } :=
  ⟨⟨fun _ => ⟨_, rfl⟩, fun _ => by decide, fun h => (by cases h)⟩, rfl⟩

theorem witness_StepKeepsResponsesLegal :
    ResponsesLegal { facing (block false 0 true) [send .next] with responses := [⟨0, []⟩] } ∧
    step { facing (block false 0 true) [send .next] with responses := [⟨0, []⟩] }
      = .next { block false 0 true with responses := [⟨0, []⟩, ⟨0x00000004, []⟩] } :=
  ⟨fun r h => by simp at h; subst h; exact .inl ⟨rfl, by decide⟩, rfl⟩

theorem witness_GenValidSetBySeedClearedByReset :
    (facing (block true 0 true) [send .next]).pending = .command (encode .next) :: [] ∧
    (facing (block true 0 true) [.reset]).pending = .reset :: [] ∧ isCommand .reset = false ∧
    isCommand (.abort ⟨0, []⟩) = false ∧ (block false 0 true).genValid = false := ⟨rfl, rfl, rfl, rfl, rfl⟩

theorem witness_LaneFileWrittenBySeedOnly :
    (facing (block false 0 true) [send (.seed countingKey)]).pending = send (.seed countingKey) :: [] ∧
    (facing (block false 0 true) [send .next]).pending = send .next :: [] ∧ keepsGenerator (send .next) = true ∧
    step (facing (block false 0 true) [send .next]) = .next { block false 0 true with responses := [⟨0x00000004, []⟩] } :=
  ⟨rfl, rfl, by decide, rfl⟩

theorem witness_RotlMovesBits : 0 < 1 ∧ 1 < 32 ∧ 31 < 32 ∧ (rotl 0x80000000 1).getLsbD 0 = true := by decide

theorem witness_RoundsWorkOnColumnsAndDiagonals : 0 < 4 ∧ 3 < 4 := by decide

theorem witness_GroupOrderIrrelevant :
    columnGroups.reverse.Perm columnGroups ∧ diagonalGroups.reverse.Perm diagonalGroups :=
  ⟨List.reverse_perm _, List.reverse_perm _⟩

theorem witness_InitializeChecksKeyThenNonce :
    (countingBytes 31).length ≠ 32 ∧ (countingBytes 33).length ≠ 32 ∧
    (countingBytes 32).length = 32 ∧ (countingBytes 11).length ≠ 12 ∧ (countingBytes 13).length ≠ 12 := by decide

theorem witness_InitAnswersTheStateBytes : (countingBytes 32).length = 32 ∧ (countingBytes 12).length = 12 := by decide

theorem witness_InitLengthErrors :
    (Instr.init [] (countingBytes 13) 0).wf = true ∧ ([] : List Byte).length ≠ 32 ∧
    (Instr.init (countingBytes 255) [] 0).wf = true ∧ (countingBytes 255).length ≠ 32 ∧
    (Instr.init (countingBytes 32) (countingBytes 11) 0).wf = true ∧
    (countingBytes 32).length = 32 ∧ (countingBytes 11).length ≠ 12 := by decide +kernel

theorem witness_LaneAnswersFeedForward : 3 < 4 ∧ (12 ≤ 12 ∧ 12 < 16) ∧ (12 ≤ 15 ∧ 15 < 16) := by decide

/-- Two states that agree on words 4 to 11 and on no other. -/
theorem witness_FeedForwardIsolation :
    ∀ w : Fin 16, 4 ≤ w.val ∧ w.val ≤ 11 →
      (Vector.replicate 16 0 : Block)[w] =
        (#v[1, 1, 1, 1, 0, 0, 0, 0, 0, 0, 0, 0, 1, 1, 1, 1] : Block)[w] := by decide

theorem witness_LaneEqualsHostChaCha : 0 < 16 ∧ (4 ≤ 11 ∧ 11 ≤ 11 ∧ 11 < 16) ∧ 15 < 16 := by decide

theorem witness_PureCommandsLeaveTheGenerator :
    isPure (.qr 0 0 0 0) = true ∧ isPure (.dround (Vector.replicate 16 0)) = true ∧ isPure (.init [] [] 0) = true ∧
    isPure (.lane countingKey 0) = true ∧
    ∀ i ∈ [Instr.seed countingKey, .qr 1 2 3 4, .next, .init [] [] 0, .next], i.wf = true := by decide +kernel

theorem witness_NextReadsLanes01 :
    (block true 0 true).idx.val = (0 : Fin 16).val ∧ (block true 15 true).idx.val = (15 : Fin 16).val ∧
    (block true 0 true).genValid = true ∧ (block true 0 true).flip = true := by decide

theorem witness_NextReadsLanes23 :
    (block true 0 false).idx.val = (0 : Fin 16).val ∧ (block true 15 false).idx.val = (15 : Fin 16).val ∧
    (block true 15 false).genValid = true ∧ (block true 15 false).flip = false := by decide

theorem witness_NextBeforeSeedRefused : State.reset.genValid = false := rfl

theorem witness_ExhaustedUntilSeedOrReset :
    (facing (block true 16 true) [send .next, .command ⟨0, []⟩]).genValid = true ∧
    (facing (block true 16 true) [send .next, .command ⟨0, []⟩]).idx.val = 16 ∧
    (facing (block true 16 true) [send .next, .command ⟨0, []⟩]).pending = [send .next, .command ⟨0, []⟩] ∧
    ∀ e ∈ [send .next, .command ⟨0, []⟩], keepsGenerator e = true := by decide

theorem witness_NotSeededUntilSeed :
    (facing (block false 0 true) [send .next, .reset]).genValid = false ∧
    (facing (block false 0 true) [send .next, .reset]).pending = [send .next, .reset] ∧
    ∀ e ∈ [send .next, .reset], keepsGenerator e = true ∨ isCommand e = false := by decide

/-- The first and the last count. -/
theorem witness_CursorCountsOutputs :
    GeneratorInv (facing (seeded 0 true) [send .next]) ∧ outputCount (seeded 0 true) = 0 ∧
    GeneratorInv (facing (seeded 16 true) [send .next]) ∧ outputCount (seeded 16 true) = 32 ∧
    (facing (seeded 16 true) [send .next]).genValid = true ∧
    (facing (seeded 16 true) [send .next]).pending = .command (encode .next) :: [] :=
  ⟨⟨fun _ => ⟨_, rfl⟩, fun h => (by cases h), fun h => (by cases h)⟩, by decide,
   ⟨fun _ => ⟨_, rfl⟩, fun h => (by cases h), fun h => (by cases h)⟩, by decide, rfl, rfl⟩

theorem witness_NextDependsOnSeedAndCount :
    (seeded 3 false).genValid = true ∧ (facing (seeded 3 false) [.reset]).genValid = true ∧
    (seeded 3 false).lanes = seedLanes (Vector.replicate 32 0) ∧
    (facing (seeded 3 false) [.reset]).lanes = seedLanes (Vector.replicate 32 0) ∧
    outputCount (seeded 3 false) = outputCount (facing (seeded 3 false) [.reset]) := ⟨rfl, rfl, rfl, rfl, rfl⟩

theorem witness_OutputsInClosedForm :
    (facing (block true 16 true) [send (.seed countingKey), send .next, send (.qr 1 2 3 4), send .next, .reset]).pending
      = send (.seed countingKey) :: ([send .next, send (.qr 1 2 3 4), send .next] ++ [.reset]) ∧
    ∀ e ∈ [send .next, send (.qr 1 2 3 4), send .next], keepsGenerator e = true := ⟨rfl, by decide⟩

end Sys2Proof.Tests
end

section
/-! SUPPORT. R10 and R45: `LE32` and `bytes_le` bit by bit, and that they undo each other on a word, on four bytes and
on a 16-word state. -/

namespace Sys2Proof

/-- R10: byte `k` of `LE32` is its `k`-th argument, bit for bit. -/
theorem getLsbD_le32 (b0 b1 b2 b3 : Byte) (k j : Nat) (hk : k < 4) (hj : j < 8) :
    (le32 b0 b1 b2 b3).getLsbD (8 * k + j) = (byteAt [b0, b1, b2, b3] k).getLsbD j := by
  match k, hk with
  | 0, _ => simp [le32, byteAt, hj, show j < 16 by omega, show j < 24 by omega, show j < 32 by omega]
  | 1, _ => simp [le32, byteAt, show 8 + j < 16 by omega, show 8 + j < 24 by omega, show 8 + j < 32 by omega]
  | 2, _ => simp [le32, byteAt, show 8 ≤ 16 + j by omega, show 8 ≤ 16 + j - 8 by omega, show 16 + j < 24 by omega,
      show 16 + j < 32 by omega]
  | 3, _ => simp [le32, byteAt, show 8 ≤ 24 + j by omega, show 8 ≤ 24 + j - 8 by omega, show 8 ≤ 24 + j - 16 by omega,
      show 24 + j < 32 by omega]

/-- R10, R45: byte `k` of `bytes_le` is `v[8k+7:8k]`. -/
theorem byteAt_bytesLe (v : Word) (k : Nat) (hk : k < 4) : byteAt (bytesLe v) k = v.extractLsb' (8 * k) 8 := by
  match k, hk with
  | 0, _ | 1, _ | 2, _ | 3, _ => rfl

@[simp] theorem wordAt_bytesLe (v : Word) : wordAt (bytesLe v) 0 = v := by
  refine BitVec.eq_of_getLsbD_eq fun i hi => ?_
  have hk : i / 8 < 4 := by omega
  have hj : i % 8 < 8 := by omega
  calc (wordAt (bytesLe v) 0).getLsbD i
      = (wordAt (bytesLe v) 0).getLsbD (8 * (i / 8) + i % 8) := by rw [Nat.div_add_mod]
    _ = (byteAt (bytesLe v) (i / 8)).getLsbD (i % 8) := getLsbD_le32 _ _ _ _ _ _ hk hj
    _ = v.getLsbD (8 * (i / 8) + i % 8) := by simp [byteAt_bytesLe v _ hk, hj]
    _ = v.getLsbD i := by rw [Nat.div_add_mod]

@[simp] theorem bytesLe_le32 (b0 b1 b2 b3 : Byte) : bytesLe (le32 b0 b1 b2 b3) = [b0, b1, b2, b3] := by
  have byte (k : Nat) (hk : k < 4) : (le32 b0 b1 b2 b3).extractLsb' (8 * k) 8 = byteAt [b0, b1, b2, b3] k := by
    refine BitVec.eq_of_getLsbD_eq fun j hj => ?_
    rw [BitVec.getLsbD_extractLsb', getLsbD_le32 _ _ _ _ k j hk hj, decide_eq_true hj, Bool.true_and]
  calc bytesLe (le32 b0 b1 b2 b3)
      = (List.range 4).map fun k => (le32 b0 b1 b2 b3).extractLsb' (8 * k) 8 := rfl
    _ = (List.range 4).map (byteAt [b0, b1, b2, b3]) := List.map_congr_left fun k hk => byte k (List.mem_range.mp hk)
    _ = [b0, b1, b2, b3] := rfl

/-- R45, R66: word `w` of a state is the word at offset `4w` of the state's bytes. -/
theorem wordAt_blockBytes (S : Block) (w : Nat) (hw : w < 16) : wordAt (blockBytes S) (4 * w) = S[w] := by
  have byte (k : Nat) (hk : k < 4) : byteAt (blockBytes S) (4 * w + k) = byteAt (bytesLe S[w]) k := by
    rw [blockBytes, byteAt_flatMap_bytesLe _ _ _ (by simpa using hw) hk, Vector.getElem_toList]
  calc wordAt (blockBytes S) (4 * w)
      = wordAt (bytesLe S[w]) 0 := by
        rw [wordAt, wordAt, ← byte 0 (by decide), ← byte 1 (by decide), ← byte 2 (by decide), ← byte 3 (by decide)]
        rfl
    _ = S[w] := wordAt_bytesLe _

@[simp] theorem blockAt_blockBytes (S : Block) : blockAt (blockBytes S) = S := by
  refine Vector.ext fun w hw => ?_
  rw [blockAt, Vector.getElem_ofFn, wordAt_blockBytes S w hw]

/-- Settles O39: both directions on a word are `getLsbD_le32` read bit by bit; a state is its words in order. -/
theorem bytesAndWordsRoundTrip : Obligations.BytesAndWordsRoundTrip :=
  ⟨wordAt_bytesLe, bytesLe_le32, blockAt_blockBytes⟩

end Sys2Proof
end

section
/-! SUPPORT. What each of the three kinds of command does, said once for every state: a pure command only answers, SEED
builds the generator, NEXT reads it. From these, what serving one transaction can do. -/

namespace Sys2Proof

/-! ## The decoder reads back what the host sends -/

/-- R62, R64, R65 for every instruction: `Laws.EncodedHeader` over the constructors. -/
theorem encodedHeader (i : Instr) : Laws.EncodedHeader.Statement i := by
  cases i with
  | qr a b c d => exact Laws.EncodedHeader.qr a b c d
  | dround S => exact Laws.EncodedHeader.dround S
  | init key nonce counter => exact Laws.EncodedHeader.init key nonce counter
  | lane key counter => exact Laws.EncodedHeader.lane key counter
  | seed key => exact Laws.EncodedHeader.seed key
  | next => exact Laws.EncodedHeader.next

/-- A word that stands right behind the first part of a block. -/
theorem wordAt_append_bytesLe (A : List Byte) (v : Word) (n : Nat) (h : A.length = n) :
    wordAt (A ++ bytesLe v) n = v := by
  have hw := wordAt_append_right A (bytesLe v) 0
  rwa [Nat.add_zero, h, wordAt_bytesLe] at hw

theorem keyAt_toList (key : Key) : keyAt key.toList = key := by
  simpa using keyAt_toList_append key []

/-- R66, R67: the operands are read from where the encoder puts them. -/
theorem assembleOperands_encode (i : Instr) (h : i.wf = true) :
    assembleOperands i.opcode (encode i).word (encode i).operands = i := by
  cases i with
  | qr a b c d =>
    exact congr (congr (congrArg₂ Instr.qr (wordAt_bytesLe a) (wordAt_bytesLe b)) (wordAt_bytesLe c)) (wordAt_bytesLe d)
  | dround S => exact congrArg Instr.dround (blockAt_blockBytes S)
  | init key nonce counter =>
    obtain ⟨hk, hn⟩ : key.length ≤ 255 ∧ nonce.length ≤ 255 := by simpa [Instr.wf, lengthFits] using h
    have hc := wordAt_append_bytesLe (key ++ nonce) counter (key.length + nonce.length) List.length_append
    simpa [Instr.opcode, encode, assembleOperands, keyLen_initWord _ _ hk, nonceLen_initWord _ _ hn] using hc
  | lane key counter =>
    have hc := wordAt_append_bytesLe key.toList counter 32 key.length_toList
    simp only [Instr.opcode, encode, assembleOperands, keyAt_toList_append, hc]
  | seed key => exact congrArg Instr.seed (keyAt_toList key)
  | next => rfl

/-- What the host sends for a well-formed instruction is decoded as that instruction. -/
theorem decode_encode (i : Instr) (h : i.wf = true) : decode (encode i) = .ok i := by
  obtain ⟨hop, hres, hlen⟩ := encodedHeader i h
  calc decode (encode i)
      = .ok (assembleOperands i.opcode (encode i).word (encode i).operands) := by simp [decode, hop, hres, hlen]
    _ = .ok i := by rw [assembleOperands_encode i h]

end Sys2Proof

namespace Sys2Proof.Machine

open Sys2Proof.Safety

/-! ## One rule per kind of command -/

/-- R32: a pure command appends one response, and which one does not depend on the state. -/
theorem exec_pure (i : Instr) (h : isPure i = true) : ∃ r, ∀ s, exec i s = .next (s.pushResponse r) := by
  cases i with
  | qr a b c d => exact ⟨_, fun s => respond_eq _ _ _ _ s⟩
  | dround S => exact ⟨_, fun s => respond_eq _ _ _ _ s⟩
  | init key nonce counter =>
    simp only [exec, execInit]
    rcases buildState_cases key nonce counter with ⟨_, hb⟩ | ⟨_, _, hb⟩ | ⟨_, _, hb⟩ <;> rw [hb]
    · exact ⟨_, fun s => raise_eq _ _ _ s⟩
    · exact ⟨_, fun s => raise_eq _ _ _ s⟩
    · exact ⟨_, fun s => respond_eq _ _ _ _ s⟩
  | lane key counter => exact ⟨_, fun s => respond_eq _ _ _ _ s⟩
  | seed key => cases h
  | next => cases h

/-- R160: the fresh generator that a SEED leaves. -/
theorem exec_seed (K : Key) (s : State) : exec (.seed K) s =
    .next ((((s.withLanes (seedLanes K)).withCursor 0 true).withGenValid true).pushResponse ⟨0, []⟩) := by
  simp [exec, execSeed, respond_eq]

/-- R167. -/
theorem exec_next_notSeeded (s : State) (h : s.genValid = false) :
    exec .next s = .next (s.pushResponse ⟨0x00000004, []⟩) := by
  simp [exec, execNext, h, raise_eq]

/-- R166. -/
theorem exec_next_exhausted (s : State) (hg : s.genValid = true) (hi : s.idx.val = 16) :
    exec .next s = .next (s.pushResponse ⟨0x00000005, []⟩) := by
  simp [exec, execNext, hg, (wordIndex_eq_none _).2 hi, raise_eq]

/-- R163, R164. -/
theorem exec_next_output (s : State) (j : Fin 16) (hg : s.genValid = true) (hj : s.idx.val = j.val) :
    exec .next s = .next ((s.advance j).pushResponse ⟨0, bytesLe64 (s.outputAt j)⟩) := by
  simp [exec, execNext, hg, (wordIndex_eq_some _ _).2 hj, respond_eq]

/-- R167, R166, R23: the three situations in which a NEXT can find the generator. -/
theorem generator_situation (s : State) :
    s.genValid = false ∨ (s.genValid = true ∧ s.idx.val = 16) ∨
      (s.genValid = true ∧ ∃ j : Fin 16, s.idx.val = j.val) := by
  rcases execNext_cases s with ⟨hg, _⟩ | ⟨hg, hi, _⟩ | ⟨j, hg, hj, _⟩
  · exact .inl hg
  · exact .inr (.inl ⟨hg, hi⟩)
  · exact .inr (.inr ⟨hg, j, hj⟩)

/-- Everything a transaction can do to the block: append a response and no more, and then it is no SEED, and if it is a
NEXT there was no output to take; or build a generator, and then it is a SEED; or move the cursor past the output it
stands on, and then it is a NEXT. -/
theorem transact_effect (c : Command) (s : State) :
    (∃ r, transact c s = .next (s.pushResponse r) ∧ (∀ K, decode c ≠ .ok (.seed K)) ∧
      (decode c = .ok .next → s.genValid = false ∨ s.idx.val = 16)) ∨
    (∃ K r, decode c = .ok (.seed K) ∧ transact c s =
      .next ((((s.withLanes (seedLanes K)).withCursor 0 true).withGenValid true).pushResponse r)) ∨
    (∃ (j : Fin 16) (r : Response), decode c = .ok .next ∧ s.genValid = true ∧ s.idx.val = j.val ∧
      transact c s = .next ((s.advance j).pushResponse r)) := by
  rcases transact_cases c s with ⟨e, hd, ht⟩ | ⟨i, hd, ht⟩ <;> simp only [ht, hd]
  · exact .inl ⟨_, raise_eq _ _ _ s, by simp⟩
  · by_cases hp : isPure i = true
    · obtain ⟨r, hr⟩ := exec_pure i hp
      refine .inl ⟨r, hr s, ?_, ?_⟩
      · rintro K ⟨⟩; cases hp
      · rintro ⟨⟩; cases hp
    · cases i with
      | seed K => exact .inr (.inl ⟨K, _, rfl, exec_seed K s⟩)
      | next =>
        rcases generator_situation s with hg | ⟨hg, hi⟩ | ⟨hg, j, hj⟩
        · exact .inl ⟨_, exec_next_notSeeded s hg, by simp, fun _ => .inl hg⟩
        · exact .inl ⟨_, exec_next_exhausted s hg hi, by simp, fun _ => .inr hi⟩
        · exact .inr (.inr ⟨j, _, rfl, hg, hj, exec_next_output s j hg hj⟩)
      | _ => exact absurd rfl hp

/-- R51: a step with a command at the head of the port serves it. -/
theorem step_command (s : State) (c : Command) (rest : List PortEvent) (h : s.pending = .command c :: rest) :
    step s = transact c (s.withPending rest) :=
  step_event s _ rest h

/-- R51, R72: a step with a well-formed instruction at the head of the port runs it. -/
theorem step_send (s : State) (i : Instr) (rest : List PortEvent) (hi : i.wf = true) (h : s.pending = send i :: rest) :
    step s = exec i (s.withPending rest) := by
  rw [step_command s (encode i) rest h, transact, decode_encode i hi]

/-- R160: lane `l` of the file a SEED writes. -/
theorem seedLanes_get (K : Key) (l : Fin 4) : (seedLanes K)[l] = deriveLane K (BitVec.ofNat 32 l.val) := by
  match l with
  | 0 | 1 | 2 | 3 => rfl

end Sys2Proof.Machine
end

section
/-! SUPPORT. The architectural state as one thing: what the invariant and the count of outputs say of it, and that a
command takes blocks with the same generator to blocks with the same generator. -/

namespace Sys2Proof.Safety

open Sys2Proof.Machine

/-! ## The same generator -/

theorem SameGenerator.symm {s t : State} (h : SameGenerator s t) : SameGenerator t s := by
  obtain ⟨hl, hi, hf, hg⟩ := h
  exact ⟨hl.symm, hi.symm, hf.symm, hg.symm⟩

theorem SameGenerator.trans {s t u : State} (h : SameGenerator s t) (h' : SameGenerator t u) : SameGenerator s u := by
  obtain ⟨hl, hi, hf, hg⟩ := h
  obtain ⟨hl', hi', hf', hg'⟩ := h'
  exact ⟨hl.trans hl', hi.trans hi', hf.trans hf', hg.trans hg'⟩

/-- The port and its record of responses are no part of the generator. -/
theorem sameGenerator_withPending (s : State) (events : List PortEvent) : SameGenerator s (s.withPending events) :=
  ⟨rfl, rfl, rfl, rfl⟩

theorem sameGenerator_pushResponse (s : State) (r : Response) : SameGenerator s (s.pushResponse r) :=
  ⟨rfl, rfl, rfl, rfl⟩

/-- What a command leaves of the generator depends on nothing but the generator it finds; what is pending stays. -/
theorem exec_sameGenerator (i : Instr) {s u : State} (h : SameGenerator s u) :
    ∃ s' u', exec i s = .next s' ∧ exec i u = .next u' ∧ SameGenerator s' u' ∧
      s'.pending = s.pending ∧ u'.pending = u.pending := by
  obtain ⟨hl, hi, hf, hg⟩ := h
  by_cases hp : isPure i = true
  · obtain ⟨r, hr⟩ := exec_pure i hp
    exact ⟨_, _, hr s, hr u, ⟨hl, hi, hf, hg⟩, rfl, rfl⟩
  · cases i with
    | seed K => exact ⟨_, _, exec_seed K s, exec_seed K u, ⟨rfl, rfl, rfl, rfl⟩, rfl, rfl⟩
    | next =>
      rcases generator_situation s with hv | ⟨hv, hx⟩ | ⟨hv, j, hj⟩
      · exact ⟨_, _, exec_next_notSeeded s hv, exec_next_notSeeded u (hg ▸ hv), ⟨hl, hi, hf, hg⟩, rfl, rfl⟩
      · exact ⟨_, _, exec_next_exhausted s hv hx, exec_next_exhausted u (hg ▸ hv) (hi ▸ hx), ⟨hl, hi, hf, hg⟩, rfl, rfl⟩
      · exact ⟨_, _, exec_next_output s j hv hj, exec_next_output u j (hg ▸ hv) (hi ▸ hj),
          ⟨hl, congrArg (idxAfter j) hf, congrArg flipAfter hf, hg⟩, rfl, rfl⟩
    | _ => exact absurd rfl hp

/-! ## The invariant -/

theorem GeneratorInv.of_sameGenerator {s t : State} (h : SameGenerator s t) (hs : GeneratorInv s) : GeneratorInv t := by
  obtain ⟨hl, hi, hf, hg⟩ := h
  obtain ⟨lanes, legal, start⟩ := hs
  rw [hl, hg] at lanes
  rw [hf, hi] at legal
  rw [hg, hi, hf] at start
  exact ⟨lanes, legal, start⟩

/-- R240, R241: a reset leaves no generator, and the cursor at its start. -/
theorem generatorInv_enterReset (s : State) : GeneratorInv s.enterReset :=
  ⟨by simp, by simp, by simp⟩

/-- R160: a SEED leaves the lanes of its seed, and the cursor at its start. -/
theorem generatorInv_seed (K : Key) (s : State) :
    GeneratorInv (((s.withLanes (seedLanes K)).withCursor 0 true).withGenValid true) :=
  ⟨fun _ => ⟨K, rfl⟩, by simp, by simp⟩

/-- R26: moving the cursor never reaches (16, 0), because the flag becomes 0 only where the index stays below 16. -/
theorem GeneratorInv.advance {s : State} (hs : GeneratorInv s) (hg : s.genValid = true) (j : Fin 16) :
    GeneratorInv (s.advance j) := by
  refine ⟨hs.lanesDerived, fun hf => ?_, fun h => absurd (hg.symm.trans h) (by decide)⟩
  have hflip : s.flip = true := by simpa [flipAfter] using hf
  rw [State.advance_idx, hflip, idxAfter_true]
  exact Nat.le_of_lt_succ j.isLt

theorem GeneratorInv.transact {s t : State} (c : Command) (hs : GeneratorInv s) (ht : transact c s = .next t) :
    GeneratorInv t := by
  rcases transact_effect c s with ⟨r, h, _, _⟩ | ⟨K, r, _, h⟩ | ⟨j, r, _, hg, _, h⟩ <;> cases h.symm.trans ht
  · exact hs.of_sameGenerator (sameGenerator_pushResponse s r)
  · exact (generatorInv_seed K s).of_sameGenerator (sameGenerator_pushResponse _ r)
  · exact (hs.advance hg j).of_sameGenerator (sameGenerator_pushResponse _ r)

/-! ## The count of outputs -/

/-- R27: sixteen indexes of two outputs each, and nothing at (16, 0). -/
theorem outputCount_le (s : State) (hs : GeneratorInv s) : outputCount s ≤ 32 := by
  have hi := s.idx.isLt
  cases hf : s.flip with
  | true => simp [outputCount, hf]; omega
  | false =>
    have hlegal := hs.cursorLegal hf
    simp [outputCount, hf]; omega

/-- R26: at index 16 all 32 outputs have been taken. -/
theorem outputCount_exhausted (s : State) (hs : GeneratorInv s) (hi : s.idx.val = 16) : outputCount s = 32 := by
  cases hf : s.flip with
  | true => simp [outputCount, hf, hi]
  | false =>
    have hlegal := hs.cursorLegal hf
    omega

theorem outputCount_lt (s : State) (j : Fin 16) (hj : s.idx.val = j.val) : outputCount s < 32 := by
  have hlt := j.isLt
  rw [outputCount, hj]
  split <;> omega

/-- R163, R164: the cursor moves by one output. -/
theorem outputCount_advance (s : State) (j : Fin 16) (hj : s.idx.val = j.val) :
    outputCount (s.advance j) = outputCount s + 1 := by
  cases hf : s.flip with
  | true => simp [outputCount, hf, hj, flipAfter]
  | false => simp [outputCount, hf, hj, flipAfter]; omega

/-! ## Events that keep the generator -/

theorem keepsGenerator_command (c : Command) :
    keepsGenerator (.command c) = true ↔ ∀ K, decode c ≠ .ok (.seed K) := by
  simp only [keepsGenerator]
  split
  next K hd => exact ⟨fun h => (by cases h), fun h => absurd hd (h K)⟩
  next hseed => exact ⟨fun _ => hseed, fun _ => rfl⟩

theorem eq_command_of_keepsGenerator (e : PortEvent) (h : keepsGenerator e = true) : ∃ c, e = .command c := by
  cases e with
  | command c => exact ⟨c, rfl⟩
  | reset => cases h
  | abort c => cases h

/-! ## Taking out the pure commands -/

/-- R32: two blocks with the same generator, one facing a sequence of commands and the other the same without the pure
ones, end with the same generator. -/
theorem run_without_pure (cmds : List Instr) (hwf : ∀ i ∈ cmds, i.wf = true) (s u : State) (h : SameGenerator s u)
    (hs : s.pending = cmds.map send) (hu : u.pending = (cmds.filter fun i => !isPure i).map send) :
    ∃ t v, core.run cmds.length s = .next t ∧ core.run (cmds.filter fun i => !isPure i).length u = .next v ∧
      SameGenerator t v := by
  induction cmds generalizing s u with
  | nil => exact ⟨s, u, rfl, rfl, h⟩
  | cons i cmds ih =>
    obtain ⟨hi, hcmds⟩ := List.forall_mem_cons.mp hwf
    have hstep := step_send s i _ hi hs
    by_cases hp : isPure i = true
    · obtain ⟨r, hr⟩ := exec_pure i hp
      rw [List.filter_cons_of_neg (by simp [hp])] at hu ⊢
      rw [List.length_cons, run_succ _ _ _ (hstep.trans (hr _))]
      exact ih hcmds _ u h rfl hu
    · rw [List.filter_cons_of_pos (by simp [hp])] at hu ⊢
      obtain ⟨s', u', hs', hu', h', hps, hpu⟩ := exec_sameGenerator i
        (((sameGenerator_withPending s _).symm.trans h).trans (sameGenerator_withPending u _))
      rw [List.length_cons, List.length_cons, run_succ _ _ _ (hstep.trans hs'),
        run_succ _ _ _ ((step_send u i _ hi hu).trans hu')]
      exact ih hcmds s' u' h' hps hpu

end Sys2Proof.Safety
end

section
/-! SUPPORT. The statements about the architectural state of spec/10_state.md, settled. -/

namespace Sys2Proof

open Sys2Proof.Machine Sys2Proof.Safety

/-- Settles O18, over the three things a step can do: idle, take a reset, serve a transaction. -/
theorem stepKeepsGenerator : Obligations.StepKeepsGenerator := by
  intro s t hs ht
  rcases step_cases s with ⟨_, h⟩ | ⟨_, rest, _, _, h⟩ | ⟨c, rest, _, h, _⟩
  · cases h.symm.trans ht
    exact hs
  · cases h.symm.trans ht
    exact generatorInv_enterReset _
  · exact (hs.of_sameGenerator (sameGenerator_withPending s rest)).transact c (h.symm.trans ht)

/-- Settles O21: of the three effects of a transaction only the SEED's writes GEN_VALID. -/
theorem genValidSetBySeedClearedByReset : Obligations.GenValidSetBySeedClearedByReset := by
  refine ⟨State.reset_genValid, fun s c rest hp => ?_, fun s e rest hp he => ?_, exec_next_notSeeded⟩
  · rw [step_command s c rest hp]
    rcases transact_effect c (s.withPending rest) with ⟨r, h, hseed, _⟩ | ⟨K, r, hd, h⟩ | ⟨j, r, hd, hg, _, h⟩ <;>
      refine ⟨_, h, ?_⟩
    · simp [hseed]
    · simp [hd]
    · simpa using fun _ _ => hg
  · rw [step_event s e rest hp]
    cases e with
    | command c => cases he
    | reset => exact ⟨_, rfl, rfl⟩
    | abort c => exact ⟨_, rfl, rfl⟩

/-- Settles O22: of the three effects of a transaction only the SEED's writes the lanes. -/
theorem laneFileWrittenBySeedOnly : Obligations.LaneFileWrittenBySeedOnly := by
  refine ⟨fun s K rest hp => ?_, fun s t e rest hp ht he => ?_⟩
  · rw [step_send s (.seed K) rest rfl hp]
    exact ⟨_, exec_seed K _, seedLanes_get K⟩
  · obtain ⟨c, rfl⟩ := eq_command_of_keepsGenerator e he
    rw [step_command s c rest hp] at ht
    rcases transact_effect c (s.withPending rest) with ⟨r, h, _, _⟩ | ⟨K, _, hd, _⟩ | ⟨j, r, _, _, _, h⟩
    · cases h.symm.trans ht
      rfl
    · exact absurd hd ((keepsGenerator_command c).mp he K)
    · cases h.symm.trans ht
      rfl

/-- Settles O38: the first clause is `exec_pure`, the second `run_without_pure` from one state with two ports. -/
theorem pureCommandsLeaveTheGenerator : Obligations.PureCommandsLeaveTheGenerator := by
  refine ⟨fun i s u hi => ?_, fun cmds s hwf => ?_⟩
  · obtain ⟨r, hr⟩ := exec_pure i hi
    exact ⟨r, hr s, hr u⟩
  · exact run_without_pure cmds hwf _ _ ⟨rfl, rfl, rfl, rfl⟩ rfl rfl

/-- Settles O47: a SEED puts the cursor at 0, a NEXT that finds an output moves it by one, and a NEXT that finds none has
the generator at 32. -/
theorem cursorCountsOutputs : Obligations.CursorCountsOutputs := by
  intro s c rest hs hg hp
  refine ⟨outputCount_le s hs, ?_⟩
  rw [step_command s c rest hp]
  rcases transact_effect c (s.withPending rest) with ⟨r, h, hseed, hnext⟩ | ⟨K, r, hd, h⟩ | ⟨j, r, hd, _, hj, h⟩ <;>
    refine ⟨_, h, ?_⟩
  · have hsame : outputCount ((s.withPending rest).pushResponse r) = outputCount s := rfl
    rw [hsame]
    cases hd : decode c with
    | error e => rfl
    | ok i =>
      cases i with
      | seed K => exact absurd hd (hseed K)
      | next =>
        have hi : s.idx.val = 16 := (hnext hd).resolve_left (by simp [hg])
        simp [outputCount_exhausted s hs hi]
      | _ => rfl
  · simp [hd, outputCount]
  · rw [hd]
    exact (outputCount_advance s j hj).trans (if_pos (outputCount_lt s j hj)).symm

end Sys2Proof
end

section
/-! SUPPORT. R43, R45 and R46: a 64-bit output is its high word in front of its low word, and so are its bytes and its
value read. -/

namespace Sys2Proof

/-- R43: `{hi, lo}` is the concatenation of the two words. -/
theorem Machine.packOutput_eq_append (hi lo : Word) : Machine.packOutput hi lo = hi ++ lo := by
  rw [Machine.packOutput, BitVec.append_def, BitVec.shiftLeftZeroExtend_eq, BitVec.setWidth'_eq]

/-- R45: the low word of a double word comes first: bytes 0 to 3 lie in `lo`, bytes 4 to 7 in `hi`. -/
theorem bytesLe64_append (hi lo : Word) : bytesLe64 (hi ++ lo) = bytesLe lo ++ bytesLe hi := by
  have low (o : Nat) (h : o + 8 ≤ 32) : (hi ++ lo).extractLsb' o 8 = lo.extractLsb' o 8 :=
    BitVec.extractLsb'_append_eq_of_add_le h
  have high (o : Nat) (h : 32 ≤ o) : (hi ++ lo).extractLsb' o 8 = hi.extractLsb' (o - 32) 8 :=
    BitVec.extractLsb'_append_eq_of_le h
  simp [bytesLe64, bytesLe, low, high]

/-- R46: read as one little-endian value, `hi` counts in units of 2^32. -/
theorem toNat_append_word (hi lo : Word) : (hi ++ lo).toNat = hi.toNat * 2 ^ 32 + lo.toNat := by
  rw [BitVec.toNat_append, ← Nat.shiftLeft_add_eq_or_of_lt lo.isLt, Nat.shiftLeft_eq]

/-- Settles O40: both clauses are read off the concatenation `hi ++ lo` that an output is. -/
theorem outputBytesLowWordFirst : Obligations.OutputBytesLowWordFirst := by
  intro lo hi
  change bytesLe64 (Machine.packOutput hi lo) = _ ∧ _
  rw [Machine.packOutput_eq_append]
  exact ⟨bytesLe64_append hi lo, toNat_append_word hi lo⟩

end Sys2Proof
end

section
/-! SUPPORT. The command port of spec/20_memory.md R49 and R51: one step serves one event, and a run serves a sequence of
them in order. -/

namespace Sys2Proof.Machine

open Sys2Proof.Safety

/-- R51, R243: a step takes the event at the head of the port off it, keeps the earlier responses, and adds one response
if the event is a command and none if it is a reset. -/
theorem step_serves_event (s : State) (e : PortEvent) (rest : List PortEvent) (h : s.pending = e :: rest) :
    ∃ t answers, step s = .next t ∧ t.pending = rest ∧ t.responses = s.responses ++ answers ∧
      answers.length = ([e].filter isCommand).length := by
  rw [step_event s e rest h]
  cases e with
  | command c =>
    obtain ⟨t, r, ht, hr, hp, _⟩ := transact_answersOnce c (s.withPending rest)
    exact ⟨t, [r], ht, hp, hr, rfl⟩
  | reset => exact ⟨_, [], rfl, rfl, (List.append_nil _).symm, rfl⟩
  | abort c => exact ⟨_, [], rfl, rfl, (List.append_nil _).symm, rfl⟩

end Sys2Proof.Machine

namespace Sys2Proof

open Sys2Proof.Machine

/-- Settles O13, by induction on the events: the first step serves the first event, and the run from there the others. -/
theorem eventsServedInOrder : Obligations.EventsServedInOrder := by
  intro events later
  induction events with
  | nil => exact fun s hp => ⟨s, [], rfl, hp, (List.append_nil _).symm, rfl⟩
  | cons e events ih =>
    intro s hp
    obtain ⟨u, first, hstep, hup, hur, hfirst⟩ := step_serves_event s e (events ++ later) hp
    obtain ⟨t, others, hrun, htp, htr, hothers⟩ := ih u hup
    refine ⟨t, first ++ others, (run_succ _ s u hstep).trans hrun, htp, ?_, ?_⟩
    · rw [htr, hur, List.append_assoc]
    · rw [← List.singleton_append, List.filter_append, List.length_append, List.length_append, hfirst, hothers]

end Sys2Proof
end

section
/-! SUPPORT. R61 to R65 on raw bits: the fields of a command word as masks and as numbers, and which opcode, reserved
bits and row of the opcode table they make. -/

namespace Sys2Proof

/-! ## Fields and masks -/

/-- A mask of `len` ones from bit `lo` keeps that field of a word, in its place. -/
theorem and_fieldMask (v : Word) (lo len : Nat) :
    v &&& (BitVec.allOnes len).setWidth 32 <<< lo = (v.extractLsb' lo len).setWidth 32 <<< lo := by
  ext i hi
  by_cases hlo : i < lo
  · simp [hlo]
  · by_cases hlen : i - lo < len
    · simp [hlo, hlen, show lo + (i - lo) = i by omega, BitVec.getLsbD_eq_getElem hi]
    · simp [hlo, hlen]

theorem extractLsb'_eq_zero_iff (v : Word) (lo len : Nat) :
    v.extractLsb' lo len = 0 ↔ v.toNat / 2 ^ lo % 2 ^ len = 0 := by
  rw [← BitVec.toNat_inj, BitVec.extractLsb'_toNat, Nat.shiftRight_eq_div_pow]
  simp

/-- The field under a mask is clear exactly if it is zero as a number. -/
theorem and_fieldMask_eq_zero (v : Word) (lo len : Nat) (h : lo + len ≤ 32) :
    v &&& (BitVec.allOnes len).setWidth 32 <<< lo = 0 ↔ v.toNat / 2 ^ lo % 2 ^ len = 0 := by
  rw [and_fieldMask, ← extractLsb'_eq_zero_iff]
  refine ⟨fun hz => BitVec.eq_of_getLsbD_eq fun j hj => ?_, fun hz => by simp [hz]⟩
  have hbit := congrArg (BitVec.getLsbD · (lo + j)) hz
  simpa [hj, show lo + j < 32 by omega, show j < 32 by omega] using hbit

theorem toNat_opcodeField (cw : Word) : (opcodeField cw).toNat = cw.toNat % 16 := by
  simp [opcodeField]

theorem keyLen_eq (cw : Word) : keyLen cw = cw.toNat / 2 ^ 8 % 256 := by
  simp [keyLen, Nat.shiftRight_eq_div_pow]

theorem nonceLen_eq (cw : Word) : nonceLen cw = cw.toNat / 2 ^ 16 % 256 := by
  simp [nonceLen, Nat.shiftRight_eq_div_pow]

/-- R64: the reserved bits of every opcode but INIT are `cw[31:4]`. -/
theorem and_commonMask_eq_zero (cw : Word) : cw &&& 0xFFFFFFF0 = 0 ↔ cw.toNat / 2 ^ 4 = 0 := by
  have h := and_fieldMask_eq_zero cw 4 28 (by decide)
  have hlt : cw.toNat / 2 ^ 4 < 2 ^ 28 := by have := cw.isLt; omega
  rwa [Nat.mod_eq_of_lt hlt] at h

/-- R64: the reserved bits of INIT are `cw[31:24]` and `cw[7:4]`. -/
theorem and_initMask_eq_zero (cw : Word) :
    cw &&& 0xFF0000F0 = 0 ↔ cw.toNat / 2 ^ 24 = 0 ∧ cw.toNat / 2 ^ 4 % 16 = 0 := by
  have hhigh := and_fieldMask_eq_zero cw 24 8 (by decide)
  have hlow : _ ↔ cw.toNat / 2 ^ 4 % 16 = 0 := and_fieldMask_eq_zero cw 4 4 (by decide)
  have hlt : cw.toNat / 2 ^ 24 < 2 ^ 8 := by have := cw.isLt; omega
  rw [Nat.mod_eq_of_lt hlt] at hhigh
  have hmask : (0xFF0000F0 : Word) =
      (BitVec.allOnes 8).setWidth 32 <<< 24 ||| (BitVec.allOnes 4).setWidth 32 <<< 4 := by decide
  rw [hmask, BitVec.and_or_distrib_left, ← hhigh, ← hlow]
  exact BitVec.or_eq_zero_iff

/-! ## The opcode -/

/-- R62: a row's `match` is its opcode number. -/
theorem opcodeOf_eq_some (f : BitVec 4) (op : Opcode) :
    opcodeOf f = some op ↔ f.toNat = (tableRow op).1.toNat := by
  revert f
  cases op <;> decide

/-- R62, R61: the opcode of a command word is read off its low four bits. -/
theorem opcodeOf_opcodeField (cw : Word) (op : Opcode) :
    opcodeOf (opcodeField cw) = some op ↔ cw.toNat % 16 = (tableRow op).1.toNat := by
  rw [opcodeOf_eq_some, toNat_opcodeField]

/-- R63: the reserved opcodes. -/
theorem opcodeOf_opcodeField_eq_none (cw : Word) :
    opcodeOf (opcodeField cw) = none ↔ cw.toNat % 16 = 0 ∨ 7 ≤ cw.toNat % 16 := by
  have field : ∀ f : BitVec 4, opcodeOf f = none ↔ f.toNat = 0 ∨ 7 ≤ f.toNat := by decide
  rw [field, toNat_opcodeField]

/-- R65 on raw bits is the length the decoder asks for. -/
theorem requiredBytes_eq_need (cw : Word) (op : Opcode) (h : opcodeOf (opcodeField cw) = some op) :
    Safety.requiredBytes cw = need op cw := by
  rw [opcodeOf_opcodeField] at h
  cases op <;> simp [Safety.requiredBytes, h, tableRow, need, keyLen_eq, nonceLen_eq]

/-! ## The opcode table -/

/-- A pattern with bits under one mask only is matched under two exactly if the other mask finds nothing. -/
theorem and_or_eq_iff (v m l c : Word) (hm : c &&& m = 0) (hl : c &&& l = c) :
    v &&& (m ||| l) = c ↔ v &&& m = 0 ∧ v &&& l = c := by
  constructor
  · intro h
    have absorb : (m ||| l) &&& m = m ∧ (m ||| l) &&& l = l := by
      constructor <;> ext i hi <;> simp +contextual
    constructor
    · rw [← hm, ← h, BitVec.and_assoc, absorb.1]
    · rw [← hl, ← h, BitVec.and_assoc, absorb.2]
  · rintro ⟨hzero, hc⟩
    rw [BitVec.and_or_distrib_left, hzero, hc]
    exact BitVec.zero_or

/-- R62, R64: a command word matches a row exactly if it has the row's opcode and no reserved bit set. -/
theorem tableRow_match_iff (cw : Word) (op : Opcode) :
    cw &&& (tableRow op).2 = (tableRow op).1 ↔
      opcodeOf (opcodeField cw) = some op ∧ cw &&& reservedMask op = 0 := by
  have hmask : (tableRow op).2 = reservedMask op ||| 0xF := by cases op <;> decide
  have hreserved : (tableRow op).1 &&& reservedMask op = 0 := by cases op <;> decide
  have hcode : (tableRow op).1 &&& 0xF = (tableRow op).1 := by cases op <;> decide
  have hfield : (cw &&& 0xF).toNat = cw.toNat % 16 := Nat.and_two_pow_sub_one_eq_mod _ 4
  rw [hmask, and_or_eq_iff _ _ _ _ hreserved hcode, and_comm, opcodeOf_opcodeField, ← hfield, BitVec.toNat_inj]

end Sys2Proof
end

section
/-! SUPPORT. What the decoder does with a transaction, said once (R71, R72): its four ways to end; and that the encoder
writes back the bits and bytes that an accepted transaction had. -/

namespace Sys2Proof

/-! ## The four ways a decoding ends -/

theorem decode_reservedOpcode (cw : Word) (B : List Byte) (h : opcodeOf (opcodeField cw) = none) :
    decode ⟨cw, B⟩ = .error .reservedOpcode := by
  simp [decode, h]

theorem decode_reservedBit (cw : Word) (B : List Byte) (op : Opcode) (hop : opcodeOf (opcodeField cw) = some op)
    (hbit : cw &&& reservedMask op ≠ 0) : decode ⟨cw, B⟩ = .error .reservedBit := by
  simp only [decode, hop]
  exact if_pos hbit

theorem decode_operandLength (cw : Word) (B : List Byte) (op : Opcode)
    (hrow : cw &&& (tableRow op).2 = (tableRow op).1) (hlen : B.length ≠ need op cw) :
    decode ⟨cw, B⟩ = .error .operandLength := by
  obtain ⟨hop, hclear⟩ := (tableRow_match_iff cw op).mp hrow
  simp [decode, hop, hclear, hlen]

theorem decode_accepted (cw : Word) (B : List Byte) (op : Opcode)
    (hrow : cw &&& (tableRow op).2 = (tableRow op).1) (hlen : B.length = need op cw) :
    decode ⟨cw, B⟩ = .ok (assembleOperands op cw B) := by
  obtain ⟨hop, hclear⟩ := (tableRow_match_iff cw op).mp hrow
  simp [decode, hop, hclear, hlen]

/-- R71: in the order of the checks, what a transaction is and how its decoding ends. -/
theorem decode_cases (cw : Word) (B : List Byte) :
    (opcodeOf (opcodeField cw) = none ∧ decode ⟨cw, B⟩ = .error .reservedOpcode) ∨
    ∃ op, opcodeOf (opcodeField cw) = some op ∧
      ((cw &&& reservedMask op ≠ 0 ∧ decode ⟨cw, B⟩ = .error .reservedBit) ∨
       cw &&& (tableRow op).2 = (tableRow op).1 ∧
         ((B.length ≠ need op cw ∧ decode ⟨cw, B⟩ = .error .operandLength) ∨
          (B.length = need op cw ∧ decode ⟨cw, B⟩ = .ok (assembleOperands op cw B)))) := by
  cases hop : opcodeOf (opcodeField cw) with
  | none => exact .inl ⟨rfl, decode_reservedOpcode cw B hop⟩
  | some op =>
    refine .inr ⟨op, rfl, ?_⟩
    by_cases hclear : cw &&& reservedMask op = 0
    · have hrow := (tableRow_match_iff cw op).mpr ⟨hop, hclear⟩
      by_cases hlen : B.length = need op cw
      · exact .inr ⟨hrow, .inr ⟨hlen, decode_accepted cw B op hrow hlen⟩⟩
      · exact .inr ⟨hrow, .inl ⟨hlen, decode_operandLength cw B op hrow hlen⟩⟩
    · exact .inl ⟨hclear, decode_reservedBit cw B op hop hclear⟩

/-- R72: what is accepted, and what is read from it. -/
theorem decode_eq_ok_iff (cw : Word) (B : List Byte) (i : Instr) :
    decode ⟨cw, B⟩ = .ok i ↔ ∃ op, cw &&& (tableRow op).2 = (tableRow op).1 ∧ B.length = need op cw ∧
      assembleOperands op cw B = i := by
  constructor
  · intro h
    rcases decode_cases cw B with ⟨_, hd⟩ | ⟨op, _, ⟨_, hd⟩ | ⟨hrow, ⟨_, hd⟩ | ⟨hlen, hd⟩⟩⟩ <;> cases hd.symm.trans h
    exact ⟨op, hrow, hlen, rfl⟩
  · rintro ⟨op, hrow, hlen, rfl⟩
    exact decode_accepted cw B op hrow hlen

/-! ## The encoder writes the accepted bytes back -/

/-- The bytes read one by one from offset `o` on are a slice of the block. -/
theorem ofFn_byteAt (B : List Byte) (o n : Nat) (h : o + n ≤ B.length) :
    (List.ofFn fun k : Fin n => byteAt B (o + k)) = (B.drop o).take n := by
  refine List.ext_getElem (by simp; omega) fun k hk _ => ?_
  have hkn : k < n := by simpa using hk
  have hget : byteAt B (o + k) = B[o + k] := List.getD_eq_getElem _ _ _
  simp [hget]

theorem bytesLe_wordAt (B : List Byte) (o : Nat) (h : o + 4 ≤ B.length) :
    bytesLe (wordAt B o) = (B.drop o).take 4 :=
  (bytesLe_le32 _ _ _ _).trans (ofFn_byteAt B o 4 h)

/-- The words read one after another are the block's bytes. -/
theorem flatMap_bytesLe_wordAt (B : List Byte) (n : Nat) (h : 4 * n ≤ B.length) :
    (List.ofFn fun w : Fin n => wordAt B (4 * w)).flatMap bytesLe = B.take (4 * n) := by
  induction n with
  | zero => rfl
  | succ n ih =>
    rw [List.ofFn_succ_last, List.flatMap_append, List.flatMap_singleton]
    simp only [Fin.val_castSucc, Fin.val_last]
    rw [ih (by omega), bytesLe_wordAt B _ (by omega), ← List.take_add, Nat.mul_add_one]

theorem blockBytes_blockAt (B : List Byte) (h : B.length = 64) : blockBytes (blockAt B) = B := by
  rw [blockBytes, blockAt, Vector.toList_ofFn, flatMap_bytesLe_wordAt B 16 h.ge, List.take_of_length_le h.le]

theorem toList_keyAt (B : List Byte) (h : 32 ≤ B.length) : (keyAt B).toList = B.take 32 := by
  rw [keyAt, Vector.toList_ofFn]
  simpa using ofFn_byteAt B 0 32 (by omega)

/-- A word that ends a block, read and written again behind what stands before it. -/
theorem take_append_bytesLe_wordAt (B : List Byte) (o : Nat) (h : B.length = o + 4) :
    B.take o ++ bytesLe (wordAt B o) = B := by
  rw [bytesLe_wordAt B o h.ge, ← List.take_add, List.take_of_length_le h.le]

/-- R61, R125: a command word in INIT's row is INIT's opcode and its two length fields. -/
theorem initWord_of_match (cw : Word) (h : cw &&& 0xFF0000FF#32 = 0x00000003#32) :
    initWord (keyLen cw) (nonceLen cw) = cw := by
  have hmask : BitVec.allOnes 32 =
      0xFF0000FF#32 ||| (BitVec.allOnes 8).setWidth 32 <<< 8 ||| (BitVec.allOnes 8).setWidth 32 <<< 16 := by decide
  calc initWord (keyLen cw) (nonceLen cw)
      = 0x00000003#32 ||| (cw.extractLsb' 8 8).setWidth 32 <<< 8 ||| (cw.extractLsb' 16 8).setWidth 32 <<< 16 := by
        rw [initWord, keyLen, nonceLen, BitVec.ofNat_toNat, BitVec.ofNat_toNat, BitVec.setWidth_eq, BitVec.setWidth_eq]
        rfl
    _ = cw &&& BitVec.allOnes 32 := by
        rw [hmask, BitVec.and_or_distrib_left, BitVec.and_or_distrib_left, and_fieldMask, and_fieldMask, h]
    _ = cw := BitVec.and_allOnes

/-- R64: outside INIT every bit of the command word is fixed. -/
theorem eq_of_tableRow_match (op : Opcode) (cw : Word) (hop : op ≠ .init)
    (hrow : cw &&& (tableRow op).2 = (tableRow op).1) : cw = (tableRow op).1 := by
  have hmask : (tableRow op).2 = BitVec.allOnes 32 := by
    cases op with
    | init => exact absurd rfl hop
    | _ => rfl
  rwa [hmask, BitVec.and_allOnes] at hrow

/-- R67: INIT's key and nonce are as long as the command word says. -/
theorem length_initOperands (cw : Word) (B : List Byte) (h : B.length = keyLen cw + nonceLen cw + 4) :
    (B.take (keyLen cw)).length = keyLen cw ∧ ((B.drop (keyLen cw)).take (nonceLen cw)).length = nonceLen cw :=
  ⟨List.length_take_of_le (by omega), List.length_take_of_le (by rw [List.length_drop]; omega)⟩

/-- R62, R66: what the decoder reads from an accepted transaction, the encoder spells with the same bits. -/
theorem encode_assembleOperands (op : Opcode) (cw : Word) (B : List Byte)
    (hrow : cw &&& (tableRow op).2 = (tableRow op).1) (hlen : B.length = need op cw) :
    encode (assembleOperands op cw B) = ⟨cw, B⟩ := by
  cases op with
  | qr =>
    cases eq_of_tableRow_match .qr cw (by decide) hrow
    exact congrArg (Command.mk _)
      ((flatMap_bytesLe_wordAt B 4 hlen.ge).trans (List.take_of_length_le hlen.le))
  | dround =>
    cases eq_of_tableRow_match .dround cw (by decide) hrow
    exact congrArg (Command.mk _) (blockBytes_blockAt B hlen)
  | init =>
    have hB : B.length = keyLen cw + nonceLen cw + 4 := hlen
    obtain ⟨hkey, hnonce⟩ := length_initOperands cw B hB
    simp only [assembleOperands, encode, hkey, hnonce, initWord_of_match cw hrow, ← List.take_add,
      take_append_bytesLe_wordAt B _ hB]
  | lane =>
    cases eq_of_tableRow_match .lane cw (by decide) hrow
    have hB : B.length = 32 + 4 := hlen
    simp only [assembleOperands, encode, toList_keyAt B (by omega), take_append_bytesLe_wordAt B 32 hB]
    rfl
  | seed =>
    cases eq_of_tableRow_match .seed cw (by decide) hrow
    exact congrArg (Command.mk _) ((toList_keyAt B hlen.ge).trans (List.take_of_length_le hlen.le))
  | next =>
    cases eq_of_tableRow_match .next cw (by decide) hrow
    exact congrArg (Command.mk _) (List.length_eq_zero_iff.mp hlen).symm

/-- R61: the lengths of an INIT that was read are values of 8-bit fields. -/
theorem wf_assembleOperands (op : Opcode) (cw : Word) (B : List Byte) : (assembleOperands op cw B).wf = true := by
  cases op with
  | init =>
    have hk : keyLen cw < 256 := (cw.extractLsb' 8 8).isLt
    have hn : nonceLen cw < 256 := (cw.extractLsb' 16 8).isLt
    simp only [assembleOperands, Instr.wf, lengthFits, Bool.and_eq_true, decide_eq_true_eq, List.length_take]
    omega
  | _ => rfl

end Sys2Proof
end

section
/-! SUPPORT. The statements about decoding and encoding of spec/30_encoding.md, settled. -/

namespace Sys2Proof

open Sys2Proof.Machine Sys2Proof.Safety

/-- Settles O1: the command word and the block that `encode` writes pass every check, and its operands stand where
`assembleOperands` reads them. -/
theorem decodeEncodeRoundTrip : Obligations.DecodeEncodeRoundTrip :=
  decode_encode

/-- Settles O2: an accepted word lies in one row of the table, and over each row `encode` undoes `assembleOperands`. -/
theorem encodeDecodeRoundTrip : Obligations.EncodeDecodeRoundTrip := by
  rintro ⟨cw, B⟩ i h
  obtain ⟨op, hrow, hlen, rfl⟩ := (decode_eq_ok_iff cw B i).mp h
  exact ⟨wf_assembleOperands op cw B, encode_assembleOperands op cw B hrow hlen⟩

/-- Settles O3, by running the decoder on each of the six transactions. -/
theorem specWordsDecode : Obligations.SpecWordsDecode := by
  unfold Obligations.SpecWordsDecode
  decide

/-- Settles O4: a row matches exactly if the word has its opcode and no reserved bit, so it is the decoder's, and two
matching rows have one opcode. -/
theorem opcodeTableDecidesAcceptance : Obligations.OpcodeTableDecidesAcceptance := by
  refine ⟨fun cw B => ?_, fun cw op op' hrow hrow' => ?_⟩
  · have hlength (op : Opcode) (hrow : cw &&& (tableRow op).2 = (tableRow op).1) : requiredBytes cw = need op cw :=
      requiredBytes_eq_need cw op ((tableRow_match_iff cw op).mp hrow).1
    constructor
    · rintro ⟨i, hi⟩
      obtain ⟨op, hrow, hlen, _⟩ := (decode_eq_ok_iff cw B i).mp hi
      exact ⟨op, hrow, hlen.trans (hlength op hrow).symm⟩
    · rintro ⟨op, hrow, hlen⟩
      exact ⟨_, decode_accepted cw B op hrow (hlen.trans (hlength op hrow))⟩
  · have hop := ((tableRow_match_iff cw op).mp hrow).1
    have hop' := ((tableRow_match_iff cw op').mp hrow').1
    exact Option.some.inj (hop.symm.trans hop')

end Sys2Proof
end

section
/-! SUPPORT. What the block answers to a transaction the decoder refuses and to one it accepts (R71, R208), and the
statements about it, settled. -/

namespace Sys2Proof

open Sys2Proof.Machine Sys2Proof.Safety

/-- R72, R207: a refused transaction is answered with ILLEGAL and its detail, and nothing else happens. -/
theorem Machine.transact_refused (c : Command) (s : State) (e : DecodeError) (h : decode c = .error e) :
    transact c s = .next (s.pushResponse ⟨responseWord .illegal (decodeErrorDetail e) 0, []⟩) := by
  simp only [transact, h, refuseIllegal, raise_eq]

theorem Machine.transact_accepted (c : Command) (s : State) (i : Instr) (h : decode c = .ok i) :
    transact c s = exec i s := by
  simp only [transact, h]

/-- Settles O5: such a word has no opcode, and that check comes first. -/
theorem reservedOpcodeRefused : Obligations.ReservedOpcodeRefused := by
  intro cw B s h
  have hd := decode_reservedOpcode cw B ((opcodeOf_opcodeField_eq_none cw).mpr h)
  rw [transact_refused _ s _ hd, responseWord_reservedOpcode]
  rfl

/-- Settles O6: the two masks say which bits are reserved, and the opcode which mask the decoder takes. -/
theorem reservedBitRefused : Obligations.ReservedBitRefused := by
  have common (op : Opcode) (h : op ≠ .init) : reservedMask op = 0xFFFFFFF0 := by
    cases op with
    | init => exact absurd rfl h
    | _ => rfl
  refine ⟨fun cw B s h => ?_, and_commonMask_eq_zero, and_initMask_eq_zero, rfl, common⟩
  have refused (op : Opcode) (hop : opcodeOf (opcodeField cw) = some op) (hbit : cw &&& reservedMask op ≠ 0) :
      transact ⟨cw, B⟩ s = .next { s with responses := s.responses ++ [⟨0x00000203, []⟩] } := by
    rw [transact_refused _ s _ (decode_reservedBit cw B op hop hbit), responseWord_reservedBit]
    rfl
  rcases h with ⟨hcode, hbit⟩ | ⟨hcode, hbit⟩
  · have hsome : opcodeOf (opcodeField cw) ≠ none := by
      rw [Ne, opcodeOf_opcodeField_eq_none]
      simp only [List.mem_cons, List.not_mem_nil, or_false] at hcode
      omega
    obtain ⟨op, hop⟩ := Option.ne_none_iff_exists'.mp hsome
    have hinit : op ≠ .init := by
      rintro rfl
      rw [(opcodeOf_opcodeField cw .init).mp hop] at hcode
      exact absurd hcode (by decide)
    exact refused op hop (by rwa [common op hinit, Ne, and_commonMask_eq_zero])
  · refine refused .init ((opcodeOf_opcodeField cw .init).mpr hcode) ?_
    change cw &&& 0xFF0000F0 ≠ 0
    rw [Ne, and_initMask_eq_zero]
    omega

/-- R61, R64: INIT's row is matched by opcode 3, bits 7 to 4 zero and bits 31 to 24 zero. -/
theorem tableRow_init_match (cw : Word) (hlow : cw.toNat % 2 ^ 8 = 3) (hhigh : cw.toNat < 2 ^ 24) :
    cw &&& (tableRow .init).2 = (tableRow .init).1 := by
  have hcode : cw.toNat % 16 = 3 := by omega
  refine (tableRow_match_iff cw .init).mpr ⟨(opcodeOf_opcodeField cw .init).mpr hcode, ?_⟩
  exact (and_initMask_eq_zero cw).mpr ⟨by omega, by omega⟩

/-- Settles O7: each line of R65's table is a row of the opcode table with the decoder's length for it. -/
theorem operandLengthDecides : Obligations.OperandLengthDecides := by
  intro cw B s length h
  obtain ⟨op, hrow, rfl⟩ : ∃ op, cw &&& (tableRow op).2 = (tableRow op).1 ∧ length = need op cw := by
    rcases h with ⟨rfl, rfl⟩ | ⟨rfl, rfl⟩ | ⟨hlow, hhigh, rfl⟩ | ⟨rfl, rfl⟩ | ⟨rfl, rfl⟩ | ⟨rfl, rfl⟩
    · exact ⟨.qr, by decide, rfl⟩
    · exact ⟨.dround, by decide, rfl⟩
    · exact ⟨.init, tableRow_init_match cw hlow hhigh, by rw [need, keyLen_eq, nonceLen_eq]⟩
    · exact ⟨.lane, by decide, rfl⟩
    · exact ⟨.seed, by decide, rfl⟩
    · exact ⟨.next, by decide, rfl⟩
  refine ⟨fun hlen => ⟨_, decode_accepted cw B op hrow hlen⟩, fun hlen => ?_⟩
  rw [transact_refused _ s _ (decode_operandLength cw B op hrow hlen), responseWord_operandLength]
  rfl

end Sys2Proof
end

section
/-! SUPPORT. R71 and R208: the response word is the one the first failing check decides. The checks of the decoder come
first, then those of the two commands that check more, INIT and NEXT. -/

namespace Sys2Proof

open Sys2Proof.Machine Sys2Proof.Safety

/-! ## The word of an accepted command -/

/-- A byte put at bit `k` above what is already there counts in units of 2^k. -/
theorem toNat_or_byte_shiftLeft (v : Word) (b : Byte) (k : Nat) (hv : v.toNat < 2 ^ k) (hk : k ≤ 24) :
    (v ||| b.setWidth 32 <<< k).toNat = b.toNat * 2 ^ k + v.toNat := by
  have hb : b.toNat * 2 ^ k < 2 ^ 32 :=
    calc b.toNat * 2 ^ k < 2 ^ 8 * 2 ^ k := Nat.mul_lt_mul_of_pos_right b.isLt (Nat.two_pow_pos k)
      _ ≤ 2 ^ 8 * 2 ^ 24 := Nat.mul_le_mul_left _ (Nat.pow_le_pow_right (by decide) hk)
  have hbyte : (b.setWidth 32 <<< k).toNat = b.toNat <<< k := by
    rw [BitVec.toNat_shiftLeft, BitVec.toNat_setWidth_of_le (by decide), Nat.shiftLeft_eq, Nat.mod_eq_of_lt hb]
  rw [BitVec.toNat_or, hbyte, Nat.or_comm, ← Nat.shiftLeft_add_eq_or_of_lt hv, Nat.shiftLeft_eq]

/-- R69: the response word as a number. -/
theorem toNat_responseWord (st : Status) (detail want : Byte) :
    (responseWord st detail want).toNat =
      want.toNat * 2 ^ 16 + (detail.toNat * 2 ^ 8 + (statusCode st).toNat) := by
  have hcode : ((statusCode st).setWidth 32).toNat = (statusCode st).toNat := BitVec.toNat_setWidth_of_le (by decide)
  have hlt := (statusCode st).isLt
  have hlow := toNat_or_byte_shiftLeft ((statusCode st).setWidth 32) detail 8 (by omega) (by decide)
  rw [responseWord, toNat_or_byte_shiftLeft _ want 16 (by have := detail.isLt; omega) (by decide), hlow, hcode]

/-- R126: the response word of a length error, the length received in `detail`. -/
theorem responseWord_keySize (n : Nat) (h : n ≤ 255) :
    responseWord .keySize (BitVec.ofNat 8 n) (BitVec.ofNat 8 32) = BitVec.ofNat 32 (0x00200001 + 2 ^ 8 * n) := by
  refine BitVec.eq_of_toNat_eq ?_
  simp [toNat_responseWord, statusCode]
  omega

theorem responseWord_nonceSize (n : Nat) (h : n ≤ 255) :
    responseWord .nonceSize (BitVec.ofNat 8 n) (BitVec.ofNat 8 12) = BitVec.ofNat 32 (0x000C0002 + 2 ^ 8 * n) := by
  refine BitVec.eq_of_toNat_eq ?_
  simp [toNat_responseWord, statusCode]
  omega

/-- R208, behind the decoder's checks: only INIT and NEXT check more. -/
def commandWord (i : Instr) (s : State) : Word :=
  match i with
  | .init key nonce _ =>
    if key.length ≠ 32 then BitVec.ofNat 32 (0x00200001 + 2 ^ 8 * key.length)
    else if nonce.length ≠ 12 then BitVec.ofNat 32 (0x000C0002 + 2 ^ 8 * nonce.length)
    else 0
  | .next => if s.genValid = false then 0x00000004 else if s.idx.val = 16 then 0x00000005 else 0
  | _ => 0

/-- The word of the one response a well-formed instruction gets. -/
theorem exec_commandWord (i : Instr) (s : State) (h : i.wf = true) :
    ∃ t R, exec i s = .next t ∧ t.responses = s.responses ++ [⟨commandWord i s, R⟩] := by
  cases i with
  | init key nonce counter =>
    obtain ⟨hk, hn⟩ : key.length ≤ 255 ∧ nonce.length ≤ 255 := by simpa [Instr.wf, lengthFits] using h
    simp only [exec, execInit, commandWord]
    rcases buildState_cases key nonce counter with ⟨hkey, hb⟩ | ⟨hkey, hnonce, hb⟩ | ⟨hkey, hnonce, hb⟩ <;> rw [hb]
    · rw [if_pos hkey, ← responseWord_keySize _ hk]
      exact ⟨_, [], rfl, rfl⟩
    · rw [if_neg (not_not.mpr hkey), if_pos hnonce, ← responseWord_nonceSize _ hn]
      exact ⟨_, [], rfl, rfl⟩
    · rw [if_neg (not_not.mpr hkey), if_neg (not_not.mpr hnonce)]
      exact ⟨_, _, rfl, rfl⟩
  | next =>
    rcases generator_situation s with hg | ⟨hg, hi⟩ | ⟨hg, j, hj⟩
    · exact ⟨_, [], exec_next_notSeeded s hg, by simp [commandWord, hg]⟩
    · exact ⟨_, [], exec_next_exhausted s hg hi, by simp [commandWord, hg, hi]⟩
    · have hlt : s.idx.val ≠ 16 := by omega
      have hword : commandWord .next s = 0 := by simp [commandWord, hg, hlt]
      exact ⟨_, _, exec_next_output s j hg hj, by rw [hword]; rfl⟩
  | _ => exact ⟨_, _, rfl, rfl⟩

/-! ## The word that the raw bits decide -/

theorem checkedWord_reservedOpcode (cw : Word) (B : List Byte) (s : State) (h : opcodeOf (opcodeField cw) = none) :
    checkedWord cw B s = 0x00000103 :=
  if_pos ((opcodeOf_opcodeField_eq_none cw).mp h)

/-- R71: a defined opcode passes the first check, and its mask is the one the second check takes. -/
theorem checkedWord_passes_opcode (cw : Word) (op : Opcode) (h : opcodeOf (opcodeField cw) = some op) :
    ¬(cw.toNat % 16 = 0 ∨ 7 ≤ cw.toNat % 16) ∧
      (if cw.toNat % 16 = 3 then 0xFF0000F0 else 0xFFFFFFF0) = reservedMask op := by
  rw [(opcodeOf_opcodeField cw op).mp h]
  cases op <;> decide

theorem checkedWord_reservedBit (cw : Word) (B : List Byte) (s : State) (op : Opcode)
    (hop : opcodeOf (opcodeField cw) = some op) (hbit : cw &&& reservedMask op ≠ 0) :
    checkedWord cw B s = 0x00000203 := by
  obtain ⟨hdefined, hmask⟩ := checkedWord_passes_opcode cw op hop
  rw [checkedWord, if_neg hdefined, hmask, if_pos hbit]

theorem checkedWord_operandLength (cw : Word) (B : List Byte) (s : State) (op : Opcode)
    (hrow : cw &&& (tableRow op).2 = (tableRow op).1) (hlen : B.length ≠ need op cw) :
    checkedWord cw B s = 0x00000303 := by
  obtain ⟨hop, hclear⟩ := (tableRow_match_iff cw op).mp hrow
  obtain ⟨hdefined, hmask⟩ := checkedWord_passes_opcode cw op hop
  rw [checkedWord, if_neg hdefined, hmask, if_neg (not_not.mpr hclear), requiredBytes_eq_need cw op hop, if_pos hlen]

theorem checkedWord_accepted (cw : Word) (B : List Byte) (s : State) (op : Opcode)
    (hrow : cw &&& (tableRow op).2 = (tableRow op).1) (hlen : B.length = need op cw) :
    checkedWord cw B s = commandWord (assembleOperands op cw B) s := by
  obtain ⟨hop, hclear⟩ := (tableRow_match_iff cw op).mp hrow
  obtain ⟨hdefined, hmask⟩ := checkedWord_passes_opcode cw op hop
  rw [checkedWord, if_neg hdefined, hmask, if_neg (not_not.mpr hclear), requiredBytes_eq_need cw op hop,
    if_neg (not_not.mpr hlen), (opcodeOf_opcodeField cw op).mp hop, ← keyLen_eq, ← nonceLen_eq]
  cases op with
  | init =>
    obtain ⟨hkey, hnonce⟩ := length_initOperands cw B hlen
    simp [tableRow, assembleOperands, commandWord, hkey, hnonce]
  | next => simp [tableRow, assembleOperands, commandWord]
  | _ => rfl

/-- Settles O8, over the four ways a decoding ends: each refusal has its word, and an accepted command the word of its
own checks. -/
theorem firstFailingCheckDecides : Obligations.FirstFailingCheckDecides := by
  intro cw B s
  rcases decode_cases cw B with ⟨hop, hd⟩ | ⟨op, hop, ⟨hbit, hd⟩ | ⟨hrow, ⟨hlen, hd⟩ | ⟨hlen, hd⟩⟩⟩
  · rw [checkedWord_reservedOpcode cw B s hop, ← responseWord_reservedOpcode]
    exact ⟨_, [], transact_refused _ s _ hd, rfl⟩
  · rw [checkedWord_reservedBit cw B s op hop hbit, ← responseWord_reservedBit]
    exact ⟨_, [], transact_refused _ s _ hd, rfl⟩
  · rw [checkedWord_operandLength cw B s op hrow hlen, ← responseWord_operandLength]
    exact ⟨_, [], transact_refused _ s _ hd, rfl⟩
  · rw [checkedWord_accepted cw B s op hrow hlen, transact_accepted _ s _ hd]
    exact exec_commandWord _ s (wf_assembleOperands op cw B)

end Sys2Proof
end

section
/-! SUPPORT. The rotation of R100 bit by bit and undone, and the quarter round of R101 as the same line of steps four
times. -/

namespace Sys2Proof.Machine

/-! ## The rotation -/

/-- R100 is the library's rotation. -/
theorem rotl_eq_rotateLeft (x : Word) (n : Nat) (h : n < 32) : rotl x n = x.rotateLeft n := by
  rw [BitVec.rotateLeft_eq_rotateLeftAux_of_lt h]
  rfl

/-- R100: bit `k` comes from bit `(k - n) mod 32`; below `n` the index wraps. -/
theorem getLsbD_rotl (x : Word) (n k : Nat) (hn : n < 32) (hk : k < 32) :
    (rotl x n).getLsbD k = x.getLsbD ((k + 32 - n) % 32) := by
  rw [rotl_eq_rotateLeft x n hn, BitVec.getLsbD_rotateLeft, Nat.mod_eq_of_lt hn]
  by_cases hwrap : k < n
  · have hidx : 32 - n + k = (k + 32 - n) % 32 := by omega
    simp [hwrap, hidx]
  · have hidx : k - n = (k + 32 - n) % 32 := by omega
    simp [hwrap, hk, hidx]

/-- R103: rotating right by `n`, which is left by `32 - n`, undoes rotating left by `n`. -/
theorem rotl_rotl_sub (x : Word) (n : Nat) (h0 : 0 < n) (h : n < 32) : rotl (rotl x n) (32 - n) = x := by
  refine BitVec.eq_of_getLsbD_eq fun k hk => ?_
  rw [getLsbD_rotl _ _ _ (by omega) hk, getLsbD_rotl _ _ _ h (Nat.mod_lt _ (by decide))]
  have hidx : ((k + 32 - (32 - n)) % 32 + 32 - n) % 32 = k := by omega
  rw [hidx]

theorem rotl_sub_rotl (x : Word) (n : Nat) (h0 : 0 < n) (h : n < 32) : rotl (rotl x (32 - n)) n = x := by
  have hback := rotl_rotl_sub x (32 - n) (by omega) (by omega)
  rwa [Nat.sub_sub_self h.le] at hback

/-! ## The four lines of a quarter round -/

/-- One line of R101, its three steps `a <- a + b; d <- d ^ a; d <- rotl(d, n)`, and then the halves `(a, b)` and
`(c, d)` exchanged, so that the next line is the same function. -/
def qrLine (n : Nat) (q : Quad) : Quad :=
  ⟨q.c, rotl (q.d ^^^ (q.a + q.b)) n, q.a + q.b, q.b⟩

/-- R103: the three steps of a line undone in reverse order. -/
def qrLineBack (n : Nat) (q : Quad) : Quad :=
  ⟨q.c - q.d, q.d, q.a, rotl q.b (32 - n) ^^^ q.c⟩

/-- R101: the halves are exchanged four times, so they end where they began. -/
theorem qr_eq_qrLines : qr = qrLine 7 ∘ qrLine 8 ∘ qrLine 12 ∘ qrLine 16 := rfl

theorem qrLine_bijective (n : Nat) (h0 : 0 < n) (h : n < 32) : Function.Bijective (qrLine n) := by
  refine Function.bijective_iff_has_inverse.mpr ⟨qrLineBack n, fun q => ?_, fun q => ?_⟩
  · simp [qrLine, qrLineBack, rotl_rotl_sub _ n h0 h]
  · simp [qrLine, qrLineBack, rotl_sub_rotl _ n h0 h]

theorem qr_bijective : Function.Bijective qr := by
  rw [qr_eq_qrLines]
  have h16 := qrLine_bijective 16 (by decide) (by decide)
  have h12 := qrLine_bijective 12 (by decide) (by decide)
  have h8 := qrLine_bijective 8 (by decide) (by decide)
  have h7 := qrLine_bijective 7 (by decide) (by decide)
  exact h7.comp (h8.comp (h12.comp h16))

/-! ## The QR command -/

/-- R102. -/
theorem exec_qr (a b c d : Word) (s : State) :
    exec (.qr a b c d) s = .next (s.pushResponse ⟨0, quadBytes (qr ⟨a, b, c, d⟩)⟩) := by
  simp [exec, execQr, respond_eq]

/-! ## Zero -/

/-- R104. -/
theorem qr_zero : qr ⟨0, 0, 0, 0⟩ = ⟨0, 0, 0, 0⟩ := by decide

/-- R104: whichever words of the all-zero state a quarter round takes, it writes zeros over zeros. -/
theorem qrAt_zero (g : Group) : qrAt (Vector.replicate 16 0) g = Vector.replicate 16 0 := by
  have hword (i : Fin 16) : (Vector.replicate 16 (0 : Word))[i] = 0 := Vector.getElem_replicate i.isLt
  have hset (i : Fin 16) : (Vector.replicate 16 (0 : Word)).set i 0 = Vector.replicate 16 0 :=
    Vector.set_replicate_self
  simp only [qrAt, hword, qr_zero, hset]

/-- R104, R112: a round is a sequence of quarter rounds, so it keeps the all-zero state whichever groups it takes. -/
theorem foldl_qrAt_zero (groups : List Group) :
    groups.foldl qrAt (Vector.replicate 16 0) = Vector.replicate 16 0 :=
  List.foldl_fixed' qrAt_zero groups

theorem doubleRound_zero : doubleRound (Vector.replicate 16 0) = Vector.replicate 16 0 := by
  rw [doubleRound, columnRound, foldl_qrAt_zero, diagonalRound, foldl_qrAt_zero]

end Sys2Proof.Machine
end

section
/-! SUPPORT. The statements about the quarter round of spec/40_quarter_round.md, settled. -/

namespace Sys2Proof

open Sys2Proof.Machine

/-- Settles O23: the bits are the library rotation's, the formula is the definition. -/
theorem rotlMovesBits : Obligations.RotlMovesBits :=
  fun x n k _ hn hk => ⟨getLsbD_rotl x n k hn hk, rfl⟩

/-- Settles O25: a quarter round is four lines, and each line can be undone. -/
theorem quarterRoundBijective : Obligations.QuarterRoundBijective :=
  qr_bijective

/-- Settles O24: the four counts are below 32, where `rotl` is the library's rotation. -/
theorem qrAnswersTwelveSteps : Obligations.QrAnswersTwelveSteps := by
  intro a0 b0 c0 d0 s
  simp only [exec_qr, qr, rotl_eq_rotateLeft, Nat.reduceLT]
  rfl

/-- Settles O26: a quarter round keeps the all-zero state, and every round is made of quarter rounds. -/
theorem zeroStaysZero : Obligations.ZeroStaysZero := by
  refine ⟨qr_zero, foldl_qrAt_zero columnGroups, foldl_qrAt_zero diagonalGroups, doubleRound_zero, ?_⟩
  simp only [perm8, doubleRound_zero]

end Sys2Proof
end

section
/-! SUPPORT. The rounds of R112 as reads and writes of groups of four words: what makes a list of groups a round (R114),
that its quarter rounds do not disturb one another, and that each can be undone. -/

namespace Sys2Proof.Machine

/-! ## The four words of a group -/

/-- R110: the four words of a state that a group names. -/
def Group.words (g : Group) (S : Block) : Quad :=
  ⟨S[g.ia], S[g.ib], S[g.ic], S[g.id]⟩

/-- R111: four words written back at a group's indexes. -/
def Group.write (g : Group) (S : Block) (q : Quad) : Block :=
  (((S.set g.ia q.a).set g.ib q.b).set g.ic q.c).set g.id q.d

/-- R111: a quarter round in place reads the group's words and writes their quarter round back. -/
theorem qrAt_eq_write (S : Block) (g : Group) : qrAt S g = g.write S (qr (g.words S)) := rfl

/-- The last of the four writes to an index is the one that stands. -/
theorem Group.getElem_write (g : Group) (S : Block) (q : Quad) (w : Fin 16) :
    (g.write S q)[w] =
      if w = g.id then q.d else if w = g.ic then q.c else if w = g.ib then q.b else if w = g.ia then q.a else S[w] := by
  simp only [Group.write, Fin.getElem_fin, Vector.getElem_set, ← Fin.ext_iff, eq_comm (b := w)]

theorem Group.words_write (g : Group) (h : g.distinct) (S : Block) (q : Quad) : g.words (g.write S q) = q := by
  obtain ⟨hab, hac, had, hbc, hbd, hcd⟩ := h
  simp only [Group.words, g.getElem_write, hab, hac, had, hbc, hbd, hcd, if_true, if_false]

theorem Group.write_words (g : Group) (S : Block) : g.write S (g.words S) = S := by
  simp [Group.write, Group.words]

theorem block_ext {S T : Block} (h : ∀ w : Fin 16, S[w] = T[w]) : S = T :=
  Vector.ext fun i hi => h ⟨i, hi⟩

/-- A second write to the same group overwrites the first. -/
theorem Group.write_write (g : Group) (S : Block) (p q : Quad) : g.write (g.write S p) q = g.write S q := by
  refine block_ext fun w => ?_
  simp only [g.getElem_write]
  split_ifs <;> rfl

/-! ## Groups that share no word -/

/-- R110: the word indexes of a group. -/
def Group.indexes (g : Group) : List (Fin 16) :=
  [g.ia, g.ib, g.ic, g.id]

theorem Group.getElem_write_of_notMem (g : Group) (S : Block) (q : Quad) (w : Fin 16) (h : w ∉ g.indexes) :
    (g.write S q)[w] = S[w] := by
  simp only [Group.indexes, List.mem_cons, List.not_mem_nil, or_false, not_or] at h
  obtain ⟨ha, hb, hc, hd⟩ := h
  simp only [g.getElem_write, ha, hb, hc, hd, if_false]

/-- At a group's own indexes a write does not depend on the state written to. -/
theorem Group.getElem_write_of_mem (g : Group) (S T : Block) (q : Quad) (w : Fin 16) (h : w ∈ g.indexes) :
    (g.write S q)[w] = (g.write T q)[w] := by
  simp only [Group.indexes, List.mem_cons, List.not_mem_nil, or_false] at h
  rcases h with rfl | rfl | rfl | rfl <;> simp [g.getElem_write]

theorem Group.words_write_of_disjoint {g h : Group} (hgh : g.indexes.Disjoint h.indexes) (S : Block) (q : Quad) :
    h.words (g.write S q) = h.words S := by
  have hkeep (w : Fin 16) (hw : w ∈ h.indexes) : (g.write S q)[w] = S[w] :=
    g.getElem_write_of_notMem S q w fun hg => hgh hg hw
  simp only [Group.indexes, List.forall_mem_cons] at hkeep
  obtain ⟨ha, hb, hc, hd, -⟩ := hkeep
  simp only [Group.words, ha, hb, hc, hd]

theorem Group.write_comm {g h : Group} (hgh : g.indexes.Disjoint h.indexes) (S : Block) (p q : Quad) :
    h.write (g.write S p) q = g.write (h.write S q) p := by
  refine block_ext fun w => ?_
  by_cases hg : w ∈ g.indexes
  · rw [h.getElem_write_of_notMem _ _ w (hgh hg)]
    exact g.getElem_write_of_mem _ _ p w hg
  · rw [g.getElem_write_of_notMem _ _ w hg]
    by_cases hh : w ∈ h.indexes
    · exact h.getElem_write_of_mem _ _ q w hh
    · rw [h.getElem_write_of_notMem _ _ w hh, h.getElem_write_of_notMem _ _ w hh, g.getElem_write_of_notMem _ _ w hg]

/-! ## One quarter round in place -/

theorem words_qrAt (S : Block) (g : Group) (h : g.distinct) : g.words (qrAt S g) = qr (g.words S) :=
  g.words_write h S _

theorem words_qrAt_of_disjoint {g h : Group} (hgh : g.indexes.Disjoint h.indexes) (S : Block) :
    h.words (qrAt S g) = h.words S :=
  Group.words_write_of_disjoint hgh S _

/-- R114: quarter rounds of groups that share no word commute. -/
theorem qrAt_comm {g h : Group} (hgh : g.indexes.Disjoint h.indexes) (S : Block) :
    qrAt (qrAt S g) h = qrAt (qrAt S h) g := by
  rw [qrAt_eq_write _ h, words_qrAt_of_disjoint hgh, qrAt_eq_write _ g, Group.write_comm hgh,
    qrAt_eq_write _ g, words_qrAt_of_disjoint hgh.symm, qrAt_eq_write _ h]

/-- R115: the inverse of `qr` on the group's words undoes a quarter round in place. -/
theorem qrAt_bijective (g : Group) (h : g.distinct) : Function.Bijective (qrAt · g) := by
  obtain ⟨back, hleft, hright⟩ := Function.bijective_iff_has_inverse.mp qr_bijective
  refine Function.bijective_iff_has_inverse.mpr ⟨fun S => g.write S (back (g.words S)), fun S => ?_, fun S => ?_⟩
  · simp only [qrAt_eq_write, g.words_write h, g.write_write, hleft (g.words S), g.write_words]
  · simp only [qrAt_eq_write, g.words_write h, g.write_write, hright (g.words S), g.write_words]

/-! ## A round -/

/-- R114: a group with one word of each matrix row. -/
abbrev Group.onePerRow (g : Group) : Prop :=
  g.ia.val / 4 = 0 ∧ g.ib.val / 4 = 1 ∧ g.ic.val / 4 = 2 ∧ g.id.val / 4 = 3

/-- R114: two groups with different words in every role. -/
abbrev Group.apart (g h : Group) : Prop :=
  g.ia ≠ h.ia ∧ g.ib ≠ h.ib ∧ g.ic ≠ h.ic ∧ g.id ≠ h.id

theorem Group.onePerRow.distinct {g : Group} (h : g.onePerRow) : g.distinct := by
  obtain ⟨ha, hb, hc, hd⟩ := h
  simp only [Group.distinct, ne_eq, Fin.ext_iff]
  omega

theorem Group.apart.symm {g h : Group} (hgh : g.apart h) : h.apart g := by
  obtain ⟨ha, hb, hc, hd⟩ := hgh
  exact ⟨ha.symm, hb.symm, hc.symm, hd.symm⟩

/-- R114: words of one row have one role, so groups that differ role by role share no word. -/
theorem Group.apart.disjoint {g h : Group} (hgh : g.apart h) (hg : g.onePerRow) (hh : h.onePerRow) :
    g.indexes.Disjoint h.indexes := by
  intro w hwg hwh
  simp only [Group.indexes, List.mem_cons, List.not_mem_nil, or_false, Fin.ext_iff] at hwg hwh
  simp only [Group.apart, ne_eq, Fin.ext_iff] at hgh
  rcases hwg with hw | hw | hw | hw <;> omega

/-- R114: what a list of groups needs for its quarter rounds to be independent. -/
structure IsRound (groups : List Group) : Prop where
  rows : ∀ g ∈ groups, g.onePerRow
  apart : groups.Pairwise Group.apart

theorem columnGroups_isRound : IsRound columnGroups := ⟨by decide, by decide⟩

theorem diagonalGroups_isRound : IsRound diagonalGroups := ⟨by decide, by decide⟩

theorem words_foldl_qrAt_of_disjoint (g : Group) (groups : List Group)
    (h : ∀ k ∈ groups, k.indexes.Disjoint g.indexes) (S : Block) : g.words (groups.foldl qrAt S) = g.words S := by
  induction groups generalizing S with
  | nil => rfl
  | cons k ks ih =>
    obtain ⟨hk, hks⟩ := List.forall_mem_cons.mp h
    rw [List.foldl_cons, ih hks, words_qrAt_of_disjoint hk]

/-- R114: each group's words are the quarter round of its words before the round. -/
theorem IsRound.words_foldl {groups : List Group} (hr : IsRound groups) {g : Group} (hg : g ∈ groups) (S : Block) :
    g.words (groups.foldl qrAt S) = qr (g.words S) := by
  obtain ⟨hrows, hapart⟩ := hr
  induction groups generalizing S with
  | nil => cases hg
  | cons k ks ih =>
    obtain ⟨hk, hks⟩ := List.forall_mem_cons.mp hrows
    obtain ⟨hkks, hkapart⟩ := List.pairwise_cons.mp hapart
    have hdisj (h : Group) (hh : h ∈ ks) : k.indexes.Disjoint h.indexes := (hkks h hh).disjoint hk (hks h hh)
    rw [List.foldl_cons]
    rcases List.mem_cons.mp hg with rfl | hg
    · rw [words_foldl_qrAt_of_disjoint g ks fun h hh => (hdisj h hh).symm, words_qrAt S g hk.distinct]
    · rw [ih hg _ hks hkapart, words_qrAt_of_disjoint (hdisj g hg)]

/-- `IsRound.words_foldl` word by word. -/
theorem IsRound.getElem_foldl {groups : List Group} (hr : IsRound groups) {g : Group} (hg : g ∈ groups) (S : Block) :
    let q := qr ⟨S[g.ia], S[g.ib], S[g.ic], S[g.id]⟩
    let R := groups.foldl qrAt S
    R[g.ia] = q.a ∧ R[g.ib] = q.b ∧ R[g.ic] = q.c ∧ R[g.id] = q.d := by
  have hwords := hr.words_foldl hg S
  exact ⟨congrArg Quad.a hwords, congrArg Quad.b hwords, congrArg Quad.c hwords, congrArg Quad.d hwords⟩

/-- R114: the order of the groups does not matter, since any two of them commute. -/
theorem IsRound.foldl_perm {groups order : List Group} (hr : IsRound groups) (hp : order.Perm groups) (S : Block) :
    order.foldl qrAt S = groups.foldl qrAt S := by
  obtain ⟨hrows, hapart⟩ := hr
  refine hp.foldl_eq' (fun g hg h hh T => ?_) S
  have hg := hp.subset hg
  have hh := hp.subset hh
  by_cases hgh : g = h
  · rw [hgh]
  · have : Std.Symm Group.apart := ⟨fun _ _ => Group.apart.symm⟩
    exact qrAt_comm ((hapart.forall hg hh hgh).disjoint (hrows g hg) (hrows h hh)) T

/-- R115: a sequence of quarter rounds in place can be undone, since each can. -/
theorem foldl_qrAt_bijective (groups : List Group) (h : ∀ g ∈ groups, g.distinct) :
    Function.Bijective (groups.foldl qrAt) := by
  induction groups with
  | nil => exact Function.bijective_id
  | cons g gs ih =>
    obtain ⟨hg, hgs⟩ := List.forall_mem_cons.mp h
    exact (ih hgs).comp (qrAt_bijective g hg)

theorem columnRound_bijective : Function.Bijective columnRound :=
  foldl_qrAt_bijective columnGroups columnGroups_distinct

theorem diagonalRound_bijective : Function.Bijective diagonalRound :=
  foldl_qrAt_bijective diagonalGroups diagonalGroups_distinct

/-- R113. -/
theorem doubleRound_eq_comp : doubleRound = diagonalRound ∘ columnRound := by
  funext S
  rw [Function.comp_apply, doubleRound]

theorem doubleRound_bijective : Function.Bijective doubleRound := by
  rw [doubleRound_eq_comp]
  exact diagonalRound_bijective.comp columnRound_bijective

/-- R115. -/
theorem perm8_eq_iterate : perm8 = doubleRound^[4] := rfl

/-! ## The columns and diagonals of the matrix -/

/-- R28, R110: the group that starts at column `j` and steps `k` columns to the right, cyclically, from row to row. -/
def slantedGroup (k : Nat) (j : Fin 4) : Group where
  ia := ⟨j, by omega⟩
  ib := ⟨4 + (j + k) % 4, by omega⟩
  ic := ⟨8 + (j + 2 * k) % 4, by omega⟩
  id := ⟨12 + (j + 3 * k) % 4, by omega⟩

/-- R110, row "column": straight down. -/
theorem slantedGroup_zero_mem_columnGroups : ∀ j : Fin 4, slantedGroup 0 j ∈ columnGroups := by decide

/-- R110, row "diagonal": one column to the right at each row. -/
theorem slantedGroup_one_mem_diagonalGroups : ∀ j : Fin 4, slantedGroup 1 j ∈ diagonalGroups := by decide

/-! ## The DROUND command -/

/-- R116. -/
theorem exec_dround (S : Block) (s : State) :
    exec (.dround S) s = .next (s.pushResponse ⟨0, blockBytes (doubleRound S)⟩) := by
  simp [exec, execDround, respond_eq]

end Sys2Proof.Machine
end

section
/-! SUPPORT. The statements about the rounds of spec/41_block_transform.md, settled. -/

namespace Sys2Proof

open Sys2Proof.Machine Sys2Proof.Safety

/-- Below 16 the statements' reading of a word is the model's. -/
theorem wordOf_eq_getElem (S : Block) (w : Fin 16) : wordOf S w = S[w] := by
  simp [wordOf]

/-- The words of a group in a round's result, each by its number. -/
theorem Machine.IsRound.wordOf_foldl {groups : List Group} (hr : IsRound groups) {g : Group} (hg : g ∈ groups)
    (S : Block) :
    let q := qr ⟨wordOf S g.ia, wordOf S g.ib, wordOf S g.ic, wordOf S g.id⟩
    let R := groups.foldl qrAt S
    wordOf R g.ia = q.a ∧ wordOf R g.ib = q.b ∧ wordOf R g.ic = q.c ∧ wordOf R g.id = q.d := by
  simp only [wordOf_eq_getElem]
  exact hr.getElem_foldl hg S

/-- Settles O27: column `j` and the diagonal from column `j` are groups of their rounds. -/
theorem roundsWorkOnColumnsAndDiagonals : Obligations.RoundsWorkOnColumnsAndDiagonals := by
  intro S j hj
  have hcolumn := columnGroups_isRound.wordOf_foldl (slantedGroup_zero_mem_columnGroups ⟨j, hj⟩) S
  have hdiagonal := diagonalGroups_isRound.wordOf_foldl (slantedGroup_one_mem_diagonalGroups ⟨j, hj⟩) S
  simp only [slantedGroup, Nat.mul_zero, Nat.add_zero, Nat.mod_eq_of_lt hj] at hcolumn
  exact ⟨hcolumn, hdiagonal⟩

/-- Settles O29: both lists are rounds in the sense of `IsRound`, and the rest holds of every such list. -/
theorem groupOrderIrrelevant : Obligations.GroupOrderIrrelevant := by
  intro groups hmem
  have hr : IsRound groups := by
    rcases List.mem_pair.mp hmem with rfl | rfl
    · exact columnGroups_isRound
    · exact diagonalGroups_isRound
  exact ⟨hr.rows, hr.apart, fun _ hp S => hr.foldl_perm hp S, fun _ hg S => hr.getElem_foldl hg S⟩

/-- Settles O30: a round is a sequence of quarter rounds, each of which can be undone. -/
theorem permutationIsFourDoubleRounds : Obligations.PermutationIsFourDoubleRounds := by
  refine ⟨congrFun perm8_eq_iterate, ?_⟩
  rw [perm8_eq_iterate]
  exact doubleRound_bijective.iterate 4

/-- Settles O28: the orders differ on the state whose only non-zero word is word 0. -/
theorem droundAnswersColumnsThenDiagonals : Obligations.DroundAnswersColumnsThenDiagonals := by
  refine ⟨exec_dround, (Vector.replicate 16 0).set 0 1, ?_⟩
  decide +kernel

end Sys2Proof
end

section
/-! SUPPORT. The initial state as words and as bytes (spec/42_state_initializer.md R121 to R124), one rule for each of
INIT's three outcomes (R120, R125, R126), and the statements about them, settled. -/

namespace Sys2Proof

open Sys2Proof.Machine Sys2Proof.Safety

/-! ## The words of an initial state -/

/-- R121: words 0 to 3 of every initial state. -/
def constantWords : List Word :=
  [0x61707865, 0x3320646e, 0x79622d32, 0x6b206574]

/-- R121 to R124, in order: four constants, the key's words, the counter, the nonce's words. -/
theorem toList_initState (key : Key) (nonce : Nonce) (counter : Word) :
    (initState key nonce counter).toList =
      constantWords ++ (List.ofFn (keyWord key) ++ (counter :: List.ofFn (nonceWord nonce))) := rfl

/-- R122. -/
theorem wordOf_initState_key (key : Key) (nonce : Nonce) (counter : Word) (j : Fin 8) :
    wordOf (initState key nonce counter) (4 + j.val) = keyWord key j := by
  fin_cases j <;> rfl

/-- R124. -/
theorem wordOf_initState_nonce (key : Key) (nonce : Nonce) (counter : Word) (j : Fin 3) :
    wordOf (initState key nonce counter) (13 + j.val) = nonceWord nonce j := by
  fin_cases j <;> rfl

/-- Settles O31: every word is read from where `initState` writes it. -/
theorem initStateWords : Obligations.InitStateWords :=
  fun key nonce counter => ⟨⟨rfl, rfl, rfl, rfl⟩, wordOf_initState_key key nonce counter, rfl,
    wordOf_initState_nonce key nonce counter⟩

/-! ## The bytes of an initial state -/

/-- R121: "expand 32-byte k" in ASCII. -/
theorem flatMap_bytesLe_constantWords : constantWords.flatMap bytesLe =
    [0x65, 0x78, 0x70, 0x61, 0x6e, 0x64, 0x20, 0x33, 0x32, 0x2d, 0x62, 0x79, 0x74, 0x65, 0x20, 0x6b] := by decide

/-- R41: the words of a key are the words of the byte string it was read from. -/
theorem keyWord_keyAt (B : List Byte) (j : Fin 8) : keyWord (keyAt B) j = wordAt B (4 * j.val) := by
  simp [keyWord, keyAt, wordAt]

/-- R42. -/
theorem nonceWord_nonceAt (B : List Byte) (j : Fin 3) : nonceWord (nonceAt B) j = wordAt B (4 * j.val) := by
  simp [nonceWord, nonceAt, wordAt]

theorem flatMap_keyWord_keyAt (key : List Byte) (h : key.length = 32) :
    (List.ofFn (keyWord (keyAt key))).flatMap bytesLe = key := by
  rw [funext (keyWord_keyAt key), flatMap_bytesLe_wordAt key 8 h.ge, List.take_of_length_le h.le]

theorem flatMap_nonceWord_nonceAt (nonce : List Byte) (h : nonce.length = 12) :
    (List.ofFn (nonceWord (nonceAt nonce))).flatMap bytesLe = nonce := by
  rw [funext (nonceWord_nonceAt nonce), flatMap_bytesLe_wordAt nonce 3 h.ge, List.take_of_length_le h.le]

theorem blockBytes_initState (key nonce : List Byte) (counter : Word) (hkey : key.length = 32)
    (hnonce : nonce.length = 12) :
    blockBytes (initState (keyAt key) (nonceAt nonce) counter) =
      constantWords.flatMap bytesLe ++ key ++ bytesLe counter ++ nonce := by
  rw [blockBytes, toList_initState, List.flatMap_append, List.flatMap_append, List.flatMap_cons,
    flatMap_keyWord_keyAt key hkey, flatMap_nonceWord_nonceAt nonce hnonce, List.append_assoc, List.append_assoc]

/-! ## INIT's three outcomes -/

section
variable {key nonce : List Byte} (counter : Word) (s : State)

theorem buildState_keySize (hkey : key.length ≠ 32) :
    buildState key nonce counter = .error (.keySize key.length 32) := if_pos hkey

theorem buildState_nonceSize (hkey : key.length = 32) (hnonce : nonce.length ≠ 12) :
    buildState key nonce counter = .error (.nonceSize nonce.length 12) := by
  rw [buildState, if_neg (not_not.mpr hkey), if_pos hnonce]

theorem buildState_ok (hkey : key.length = 32) (hnonce : nonce.length = 12) :
    buildState key nonce counter = .ok (initState (keyAt key) (nonceAt nonce) counter) := by
  rw [buildState, if_neg (not_not.mpr hkey), if_neg (not_not.mpr hnonce)]

/-- R126, R202. -/
theorem exec_init_keySize (hkey : key.length ≠ 32) : exec (.init key nonce counter) s =
    .next (s.pushResponse ⟨responseWord .keySize (BitVec.ofNat 8 key.length) (BitVec.ofNat 8 32), []⟩) := by
  rw [exec, execInit, buildState_keySize counter hkey]
  exact raise_eq _ _ _ s

/-- R126, R203. -/
theorem exec_init_nonceSize (hkey : key.length = 32) (hnonce : nonce.length ≠ 12) : exec (.init key nonce counter) s =
    .next (s.pushResponse ⟨responseWord .nonceSize (BitVec.ofNat 8 nonce.length) (BitVec.ofNat 8 12), []⟩) := by
  rw [exec, execInit, buildState_nonceSize counter hkey hnonce]
  exact raise_eq _ _ _ s

/-- R125. -/
theorem exec_init_ok (hkey : key.length = 32) (hnonce : nonce.length = 12) : exec (.init key nonce counter) s =
    .next (s.pushResponse ⟨0, blockBytes (initState (keyAt key) (nonceAt nonce) counter)⟩) := by
  simp [exec, execInit, buildState_ok counter hkey hnonce, respond_eq]

end

theorem nonceAt_toList (nonce : Nonce) : nonceAt nonce.toList = nonce := by
  refine Vector.ext fun i hi => ?_
  simp [nonceAt, byteAt]

/-- Settles O32: the three outcomes of the two checks; a key and a nonce written as byte strings are read back. -/
theorem initializeChecksKeyThenNonce : Obligations.InitializeChecksKeyThenNonce := by
  refine fun key nonce counter => ⟨buildState_keySize counter, buildState_nonceSize counter, fun K N => ?_⟩
  rw [buildState_ok counter K.length_toList N.length_toList, keyAt_toList, nonceAt_toList]

/-- Settles O33: INIT answers with the bytes of the initial state, which are the bytes it was given behind the
constants. -/
theorem initAnswersTheStateBytes : Obligations.InitAnswersTheStateBytes := by
  intro key nonce counter s hkey hnonce
  rw [exec_init_ok counter s hkey hnonce, blockBytes_initState key nonce counter hkey hnonce,
    flatMap_bytesLe_constantWords]
  rfl

/-! ## The length errors -/

/-- R70: a length that fits the `detail` byte is read back from it whole. -/
theorem toNat_responseWord_detail (st : Status) (want : Byte) (n : Nat) (h : n ≤ 255) :
    ((responseWord st (BitVec.ofNat 8 n) want).extractLsb' 8 8).toNat = n := by
  rw [responseWord_detail, BitVec.toNat_ofNat, Nat.mod_eq_of_lt (by omega)]

/-- Settles O34: the word is `responseWord` of the error's three fields, each of which is read back from it. -/
theorem initLengthErrors : Obligations.InitLengthErrors := by
  intro key nonce counter s hwf
  obtain ⟨hk, hn⟩ : key.length ≤ 255 ∧ nonce.length ≤ 255 := by simpa [Instr.wf, lengthFits] using hwf
  constructor
  · intro hkey
    refine ⟨_, exec_init_keySize counter s hkey, ?_, responseWord_status _ _ _, toNat_responseWord_detail _ _ _ hk,
      responseWord_want _ _ _⟩
    rw [responseWord_keySize _ hk, BitVec.toNat_ofNat, Nat.mod_eq_of_lt (by omega)]
  · intro hkey hnonce
    refine ⟨_, exec_init_nonceSize counter s hkey hnonce, ?_, responseWord_status _ _ _,
      toNat_responseWord_detail _ _ _ hn, responseWord_want _ _ _⟩
    rw [responseWord_nonceSize _ hn, BitVec.toNat_ofNat, Nat.mod_eq_of_lt (by omega)]

end Sys2Proof
end

section
/-! SUPPORT. What the feed-forward does to a state word by word (spec/43_lane_generator.md R141, R142), the LANE command
(R144), the state a host reads back from the pure commands, and the statements about them, settled. -/

namespace Sys2Proof

open Sys2Proof.Machine Sys2Proof.Safety

/-! ## The feed-forward -/

/-- R141, R142, in the statements' reading of a word. -/
theorem wordOf_feedForward (S0 W : Block) {w : Nat} (hw : w < 16) :
    wordOf (feedForward S0 W) w = if 4 ≤ w ∧ w ≤ 11 then wordOf W w + wordOf S0 w else wordOf W w := by
  have hget := feedForward_get S0 W ⟨w, hw⟩
  simpa only [← wordOf_eq_getElem] using hget

/-- Settles O36: word `w` of the result reads the source only where `feedForward_get` adds it. -/
theorem feedForwardIsolation : Obligations.FeedForwardIsolation := by
  intro S S' W hagree
  refine block_ext fun w => ?_
  rw [feedForward_get, feedForward_get]
  split_ifs with hw
  · rw [hagree w hw]
  · rfl

/-! ## The LANE command -/

/-- R144. -/
theorem exec_lane (key : Key) (counter : Word) (s : State) :
    exec (.lane key counter) s = .next (s.pushResponse ⟨0, blockBytes (deriveLane key counter)⟩) := by
  simp [exec, execLane, respond_eq]

/-- R141: word `4 + j` of a lane has key word `j` added, which is where the initial state holds it (R122). -/
theorem wordOf_deriveLane_key (key : Key) (counter : Word) (j : Fin 8) :
    wordOf (deriveLane key counter) (4 + j.val) =
      wordOf (perm8 (initState key zeroNonce counter)) (4 + j.val) + keyWord key j := by
  rw [deriveLane, wordOf_feedForward _ _ (by omega), if_pos (by omega), wordOf_initState_key]

/-- R142. -/
theorem wordOf_deriveLane_outside (key : Key) (counter : Word) {w : Nat} (hw : w < 4 ∨ (12 ≤ w ∧ w < 16)) :
    wordOf (deriveLane key counter) w = wordOf (perm8 (initState key zeroNonce counter)) w := by
  rw [deriveLane, wordOf_feedForward _ _ (by omega), if_neg (by omega)]

/-- Settles O35: the lane is `deriveLane`'s, inside and outside the words the feed-forward changes. -/
theorem laneAnswersFeedForward : Obligations.LaneAnswersFeedForward :=
  fun key counter s => ⟨deriveLane key counter, exec_lane key counter s,
    fun _ hw => wordOf_deriveLane_outside key counter hw, wordOf_deriveLane_key key counter⟩

/-! ## The states a host reads back -/

/-- A command that only answers returns the result block of its answer. -/
theorem resultOf_of_exec {i : Instr} {s : State} {r : Response} (h : exec i s = .next (s.pushResponse r)) :
    resultOf i s = r.result := by
  simp [resultOf, h]

/-- R116: the host reads the double round of what it sent. -/
theorem blockAt_resultOf_dround (S : Block) (s : State) : blockAt (resultOf (.dround S) s) = doubleRound S := by
  rw [resultOf_of_exec (exec_dround S s), blockAt_blockBytes]

/-- R144. -/
theorem blockAt_resultOf_lane (key : Key) (counter : Word) (s : State) :
    blockAt (resultOf (.lane key counter) s) = deriveLane key counter := by
  rw [resultOf_of_exec (exec_lane key counter s), blockAt_blockBytes]

/-- R125: INIT of a key and a nonce sent whole. -/
theorem blockAt_resultOf_init (key : Key) (nonce : Nonce) (counter : Word) (s : State) :
    blockAt (resultOf (.init key.toList nonce.toList counter) s) = initState key nonce counter := by
  rw [resultOf_of_exec (exec_init_ok counter s key.length_toList nonce.length_toList), blockAt_blockBytes,
    keyAt_toList, nonceAt_toList]

/-- R140: the generator's nonce as the host sends it. -/
theorem toList_zeroNonce : zeroNonce.toList = List.replicate 12 0 := rfl

/-- Settles O37: the host's blocks are the initial state and, after four double rounds, its `perm8` (R115), so its
addition is the feed-forward of `deriveLane`. -/
theorem laneEqualsHostChaCha : Obligations.LaneEqualsHostChaCha := by
  intro key counter s B0 B1 B2 B3 B4 w hw
  have hB0 : B0 = initState key zeroNonce counter := by
    rw [← blockAt_resultOf_init key zeroNonce counter s, toList_zeroNonce]
  have hB4 : B4 = perm8 B0 := by
    simp only [B4, B3, B2, B1, blockAt_resultOf_dround, perm8]
  rw [blockAt_resultOf_lane, deriveLane, ← hB0, wordOf_feedForward _ _ hw, ← hB4]

end Sys2Proof
end

section
/-! SUPPORT. What one output is and what taking it leaves (spec/44_output_extractor.md R163, R164), as functions of the
seed and of the count of outputs (R161, R168). -/

namespace Sys2Proof.Safety

open Sys2Proof.Machine

/-! ## The output under the cursor -/

/-- R163. -/
theorem outputAt_true (s : State) (j : Fin 16) (hf : s.flip = true) :
    s.outputAt j = packOutput s.lanes[1][j] s.lanes[0][j] := by
  rw [State.outputAt, hf]; rfl

/-- R164. -/
theorem outputAt_false (s : State) (j : Fin 16) (hf : s.flip = false) :
    s.outputAt j = packOutput s.lanes[3][j] s.lanes[2][j] := by
  rw [State.outputAt, hf]; rfl

/-- R163: "index unchanged". -/
theorem advance_true (s : State) (j : Fin 16) (hj : s.idx.val = j.val) (hf : s.flip = true) :
    s.advance j = { s with flip := false } := by
  have hidx : idxAfter j true = s.idx := Fin.ext hj.symm
  rw [State.advance, hf, hidx]; rfl

/-- R164. -/
theorem advance_false (s : State) (j : Fin 16) (hf : s.flip = false) :
    s.advance j = { s with idx := j.succ, flip := true } := by
  rw [State.advance, hf]; rfl

/-- R43, R45. -/
theorem bytesLe64_packOutput (hi lo : Word) : bytesLe64 (packOutput hi lo) = bytesLe lo ++ bytesLe hi := by
  rw [packOutput_eq_append, bytesLe64_append]

/-- R161: over the lanes of seed `K`, the output under the cursor is the closed form's at the count of outputs. -/
theorem bytes_outputAt (s : State) (K : Key) (j : Fin 16) (hl : s.lanes = seedLanes K) (hj : s.idx.val = j.val) :
    bytesLe64 (s.outputAt j) = closedOutput K (outputCount s) := by
  cases hf : s.flip with
  | true =>
    have hk : outputCount s = 2 * j.val := by simp [outputCount, hf, hj]
    have heven : 2 * j.val % 2 = 0 := by omega
    have hhalf : 2 * j.val / 2 = j.val := by omega
    rw [outputAt_true s j hf, bytesLe64_packOutput, closedOutput, hk, if_pos heven, hhalf, wordOf_eq_getElem,
      wordOf_eq_getElem, hl]
    rfl
  | false =>
    have hk : outputCount s = 2 * j.val + 1 := by simp [outputCount, hf, hj]
    have hodd : ¬ (2 * j.val + 1) % 2 = 0 := by omega
    have hhalf : (2 * j.val + 1) / 2 = j.val := by omega
    rw [outputAt_false s j hf, bytesLe64_packOutput, closedOutput, hk, if_neg hodd, hhalf, wordOf_eq_getElem,
      wordOf_eq_getElem, hl]
    rfl

/-! ## The count determines the cursor -/

/-- R27: `2*IDX` and the bit `1 - FLIP` are the count's half and its parity. -/
theorem cursor_eq_of_outputCount_eq (s u : State) (h : outputCount s = outputCount u) :
    s.idx = u.idx ∧ s.flip = u.flip := by
  rw [outputCount, outputCount] at h
  have hidx : s.idx.val = u.idx.val := by split_ifs at h <;> omega
  have hbit : (if s.flip then 0 else 1) = if u.flip then 0 else 1 := by omega
  exact ⟨Fin.ext hidx, by simpa using congrArg (· = 0) hbit⟩

/-- R168: NEXT reads nothing but the generator, so its answer and what it leaves depend on nothing else. -/
theorem exec_next_sameGenerator {s u : State} (h : SameGenerator s u) :
    ∃ s' u' r, exec .next s = .next s' ∧ exec .next u = .next u' ∧ SameGenerator s' u' ∧
      s'.responses = s.responses ++ [r] ∧ u'.responses = u.responses ++ [r] := by
  have hsame := h
  obtain ⟨hl, hi, hf, hg⟩ := h
  rcases generator_situation s with hv | ⟨hv, hx⟩ | ⟨hv, j, hj⟩
  · exact ⟨_, _, _, exec_next_notSeeded s hv, exec_next_notSeeded u (hg ▸ hv), hsame, rfl, rfl⟩
  · exact ⟨_, _, _, exec_next_exhausted s hv hx, exec_next_exhausted u (hg ▸ hv) (hi ▸ hx), hsame, rfl, rfl⟩
  · have hout : s.outputAt j = u.outputAt j := by simp [State.outputAt, hl, hf]
    exact ⟨_, _, _, exec_next_output s j hv hj, exec_next_output u j (hg ▸ hv) (hi ▸ hj),
      ⟨hl, congrArg (idxAfter j) hf, congrArg flipAfter hf, hg⟩, rfl, by simp [hout]⟩

/-! ## Commands that take no output -/

/-- R166, R32: a command that is no SEED, and no NEXT where there is an output to take, only answers. -/
theorem step_only_answers (s : State) (c : Command) (rest : List PortEvent) (hp : s.pending = .command c :: rest)
    (hc : keepsGenerator (.command c) = true)
    (hnext : decode c = .ok .next → s.genValid = true → s.idx.val = 16) :
    ∃ r, step s = .next ((s.withPending rest).pushResponse r) := by
  rw [step_command s c rest hp]
  rcases transact_effect c (s.withPending rest) with ⟨r, h, _, _⟩ | ⟨K, _, hd, _⟩ | ⟨j, _, hd, hg, hj, _⟩
  · exact ⟨r, h⟩
  · exact absurd hd ((keepsGenerator_command c).mp hc K)
  · exact absurd (hj.symm.trans (hnext hd hg)) j.isLt.ne

/-- R166: a run over commands without a SEED leaves an exhausted generator as it is. -/
theorem run_keeps_exhausted (events : List PortEvent) (s : State) (hg : s.genValid = true) (hi : s.idx.val = 16)
    (hp : s.pending = events) (hev : ∀ e ∈ events, keepsGenerator e = true) :
    ∃ t, core.run events.length s = .next t ∧ SameGenerator s t := by
  induction events generalizing s with
  | nil => exact ⟨s, rfl, rfl, rfl, rfl, rfl⟩
  | cons e events ih =>
    obtain ⟨he, hevents⟩ := List.forall_mem_cons.mp hev
    obtain ⟨c, rfl⟩ := eq_command_of_keepsGenerator e he
    obtain ⟨r, hstep⟩ := step_only_answers s c events hp he fun _ _ => hi
    obtain ⟨t, hrun, hsame⟩ := ih ((s.withPending events).pushResponse r) hg hi rfl hevents
    exact ⟨t, (run_succ _ s _ hstep).trans hrun, hsame⟩

/-! ## The stream of outputs -/

/-- R161, R166: what a NEXT is answered after `k` others since the SEED with `K`. -/
def nextAnswer (K : Key) (k : Nat) : Response :=
  if k < 32 then ⟨0, closedOutput K k⟩ else ⟨0x00000005, []⟩

/-- The generator that the SEED with `K` and `k` NEXTs leave: the count stops at 32 (R27). -/
structure AfterNexts (K : Key) (k : Nat) (s : State) : Prop where
  seeded : s.genValid = true
  lanes : s.lanes = seedLanes K
  count : outputCount s = min k 32

theorem AfterNexts.of_sameGenerator {K : Key} {k : Nat} {s t : State} (h : SameGenerator s t) (hs : AfterNexts K k s) :
    AfterNexts K k t := by
  obtain ⟨hl, hi, hf, hg⟩ := h
  obtain ⟨seeded, lanes, count⟩ := hs
  refine ⟨hg ▸ seeded, hl ▸ lanes, ?_⟩
  rwa [outputCount, ← hi, ← hf]

/-- R160, R165: a SEED starts the stream, whatever came before. -/
theorem afterNexts_seed (K : Key) (s : State) :
    AfterNexts K 0 (((s.withLanes (seedLanes K)).withCursor 0 true).withGenValid true) :=
  ⟨rfl, rfl, rfl⟩

/-- R163, R164, R166: a NEXT is answered with the stream's next answer and moves on in it. -/
theorem AfterNexts.exec_next {K : Key} {k : Nat} {s : State} (hs : AfterNexts K k s) :
    ∃ t, exec .next s = .next (t.pushResponse (nextAnswer K k)) ∧ AfterNexts K (k + 1) t ∧
      t.pending = s.pending ∧ t.responses = s.responses := by
  obtain ⟨hg, hl, hc⟩ := hs
  rcases generator_situation s with hv | ⟨_, hi⟩ | ⟨_, j, hj⟩
  · exact absurd (hg.symm.trans hv) (by decide)
  · have hk : 32 ≤ k := by rw [outputCount, hi] at hc; omega
    refine ⟨s, ?_, ⟨hg, hl, by omega⟩, rfl, rfl⟩
    rw [nextAnswer, if_neg (by omega)]
    exact exec_next_exhausted s hg hi
  · have hlt := outputCount_lt s j hj
    have hk : outputCount s = k := by omega
    refine ⟨s.advance j, ?_, ⟨hg, hl, ?_⟩, rfl, rfl⟩
    · rw [nextAnswer, if_pos (hk ▸ hlt), ← hk, ← bytes_outputAt s K j hl hj]
      exact exec_next_output s j hg hj
    · rw [outputCount_advance s j hj]; omega

theorem isNextCommand_command (c : Command) : isNextCommand (.command c) = true ↔ decode c = .ok .next :=
  decide_eq_true_iff

/-- A NEXT takes the stream's next answer; any other command without a SEED leaves the stream where it is. -/
theorem AfterNexts.step {K : Key} {k : Nat} {s : State} (hs : AfterNexts K k s) (e : PortEvent)
    (rest : List PortEvent) (hp : s.pending = e :: rest) (he : keepsGenerator e = true) :
    ∃ t r, step s = .next t ∧ t.pending = rest ∧ t.responses = s.responses ++ [r] ∧
      (isNextCommand e = true → r = nextAnswer K k) ∧
      AfterNexts K (k + [e].countP isNextCommand) t := by
  obtain ⟨c, rfl⟩ := eq_command_of_keepsGenerator e he
  by_cases hn : isNextCommand (.command c) = true
  · have hs' := hs.of_sameGenerator (sameGenerator_withPending s rest)
    obtain ⟨t, hexec, ht, htp, htr⟩ := hs'.exec_next
    refine ⟨t.pushResponse (nextAnswer K k), _, ?_, htp, by simp [htr], fun _ => rfl, ?_⟩
    · rw [step_command s c rest hp, transact_accepted c _ _ ((isNextCommand_command c).mp hn), hexec]
    · simpa [hn] using ht.of_sameGenerator (sameGenerator_pushResponse t _)
  · obtain ⟨r, hstep⟩ := step_only_answers s c rest hp he fun hd => absurd ((isNextCommand_command c).mpr hd) hn
    refine ⟨_, r, hstep, rfl, rfl, fun h => absurd h hn, ?_⟩
    have hsame := (sameGenerator_withPending s rest).trans (sameGenerator_pushResponse _ r)
    simpa [hn] using hs.of_sameGenerator hsame

/-- The answers that stand opposite the NEXTs among the events. -/
def answersToNexts (events : List PortEvent) (answers : List Response) : List Response :=
  ((events.zip answers).filter fun p => isNextCommand p.1).map Prod.snd

theorem answersToNexts_cons (e : PortEvent) (events : List PortEvent) (r : Response) (answers : List Response) :
    answersToNexts (e :: events) (r :: answers) =
      (if isNextCommand e = true then [r] else []) ++ answersToNexts events answers := by
  by_cases hn : isNextCommand e = true <;> simp [answersToNexts, hn]

/-- R161, R166: a run over commands without a SEED answers its NEXTs with the stream, from where it stands. -/
theorem AfterNexts.run (K : Key) (events rest : List PortEvent) (hev : ∀ e ∈ events, keepsGenerator e = true)
    (k : Nat) (s : State) (hs : AfterNexts K k s) (hp : s.pending = events ++ rest) :
    ∃ t answers, core.run events.length s = .next t ∧ t.pending = rest ∧ t.responses = s.responses ++ answers ∧
      answers.length = events.length ∧
      answersToNexts events answers = (List.range' k (events.countP isNextCommand)).map (nextAnswer K) := by
  induction events generalizing k s with
  | nil => exact ⟨s, [], rfl, hp, (List.append_nil _).symm, rfl, rfl⟩
  | cons e events ih =>
    obtain ⟨he, hevents⟩ := List.forall_mem_cons.mp hev
    obtain ⟨u, r, hstep, hup, hur, hr, hu⟩ := hs.step e (events ++ rest) hp he
    obtain ⟨t, answers, hrun, htp, htr, hlen, hans⟩ := ih hevents _ u hu hup
    refine ⟨t, r :: answers, (run_succ _ s u hstep).trans hrun, htp, by simp [htr, hur], by simp [hlen], ?_⟩
    rw [answersToNexts_cons, hans]
    by_cases hn : isNextCommand e = true
    · simp [hn, hr hn, List.range'_succ]
    · simp [hn]

end Sys2Proof.Safety
end

section
/-! SUPPORT. The statements about SEED and NEXT of spec/44_output_extractor.md, settled. -/

namespace Sys2Proof

open Sys2Proof.Machine Sys2Proof.Safety

/-- Settles O41: `exec_seed`, field by field. -/
theorem seedBuildsGenerator : Obligations.SeedBuildsGenerator :=
  exec_seed

/-- Settles O42: the output and the advanced cursor at FLIP = 1. -/
theorem nextReadsLanes01 : Obligations.NextReadsLanes01 := by
  intro s i hg hi hf
  rw [exec_next_output s i hg hi, outputAt_true s i hf, advance_true s i hi hf]
  rfl

/-- Settles O43: the output and the advanced cursor at FLIP = 0. -/
theorem nextReadsLanes23 : Obligations.NextReadsLanes23 := by
  intro s i hg hi hf
  rw [exec_next_output s i hg hi, outputAt_false s i hf, advance_false s i hf]
  rfl

/-- Settles O44. -/
theorem nextBeforeSeedRefused : Obligations.NextBeforeSeedRefused :=
  exec_next_notSeeded

/-- Settles O45: the run is an induction in which every step only answers. -/
theorem exhaustedUntilSeedOrReset : Obligations.ExhaustedUntilSeedOrReset :=
  ⟨exec_next_exhausted, run_keeps_exhausted⟩

/-- Settles O48: the count gives the cursor and the seed the lanes, so the two generators are the same one. -/
theorem nextDependsOnSeedAndCount : Obligations.NextDependsOnSeedAndCount := by
  intro s u K hsv huv hsl hul hcount
  obtain ⟨hidx, hflip⟩ := cursor_eq_of_outputCount_eq s u hcount
  exact exec_next_sameGenerator ⟨hsl.trans hul.symm, hidx, hflip, hsv.trans huv.symm⟩

/-- Settles O49: the SEED starts the stream at output 0, and the run behind it answers the NEXTs in order. -/
theorem outputsInClosedForm : Obligations.OutputsInClosedForm := by
  intro K events rest s hp hev
  have hstep := (step_send s (.seed K) _ rfl hp).trans (exec_seed K _)
  have hstart := (afterNexts_seed K (s.withPending (events ++ rest))).of_sameGenerator
    (sameGenerator_pushResponse _ ⟨0, []⟩)
  obtain ⟨t, answers, hrun, htp, htr, hlen, hans⟩ := AfterNexts.run K events rest hev 0 _ hstart rfl
  refine ⟨t, answers, (run_succ _ s _ hstep).trans hrun, htp, by simp [htr], hlen, ?_⟩
  rw [← List.countP_eq_length_filter, List.range_eq_range']
  exact hans

end Sys2Proof
end

section
/-! SUPPORT. How a transaction can be answered, said once (spec/60_exceptions.md R201, R207): with success and a block of
one of R68's lengths, or with an error of R201 from a state that is otherwise as it was. -/

namespace Sys2Proof.Safety

open Sys2Proof.Machine

/-! ## The error words of R201 -/

/-- The error part of `LegalResponse`, of the word alone. -/
def LegalErrorWord (w : Word) : Prop :=
  (∃ got : Byte, got ≠ 32 ∧ w = 0x00200001 + got.setWidth 32 <<< 8) ∨
  (∃ got : Byte, got ≠ 12 ∧ w = 0x000C0002 + got.setWidth 32 <<< 8) ∨
  w ∈ [(0x00000103 : Word), 0x00000203, 0x00000303, 0x00000004, 0x00000005]

/-- R204: the word of each of the decoder's refusals. -/
theorem legalErrorWord_illegal (e : DecodeError) : LegalErrorWord (responseWord .illegal (decodeErrorDetail e) 0) := by
  refine .inr (.inr ?_)
  cases e <;> decide

/-- R70: a byte holds a length up to 255 whole, so only the wanted length reads as the wanted byte. -/
theorem ofNat_byte_ne {n want : Nat} (hn : n ≤ 255) (hwant : want ≤ 255) (h : n ≠ want) :
    BitVec.ofNat 8 n ≠ BitVec.ofNat 8 want := by
  intro heq
  have hnat := congrArg BitVec.toNat heq
  rw [BitVec.toNat_ofNat, BitVec.toNat_ofNat] at hnat
  omega

/-- R69: a length error's word is its code and `want`, and the length received added in bits 15 to 8. -/
theorem responseWord_eq_add (st : Status) (got want : Byte) :
    responseWord st got want = responseWord st 0#8 want + got.setWidth 32 <<< 8 := by
  refine BitVec.eq_of_toNat_eq ?_
  have hgot := got.isLt
  have hwant := want.isLt
  have hcode := (statusCode st).isLt
  rw [BitVec.toNat_add, toNat_responseWord, toNat_responseWord, BitVec.toNat_shiftLeft,
    BitVec.toNat_setWidth_of_le (by decide), Nat.shiftLeft_eq, BitVec.toNat_zero]
  omega

/-- R202. -/
theorem legalErrorWord_keySize {n : Nat} (hn : n ≤ 255) (h : n ≠ 32) :
    LegalErrorWord (responseWord .keySize (BitVec.ofNat 8 n) (BitVec.ofNat 8 32)) :=
  .inl ⟨_, ofNat_byte_ne hn (by decide) h, responseWord_eq_add .keySize _ _⟩

/-- R203. -/
theorem legalErrorWord_nonceSize {n : Nat} (hn : n ≤ 255) (h : n ≠ 12) :
    LegalErrorWord (responseWord .nonceSize (BitVec.ofNat 8 n) (BitVec.ofNat 8 12)) :=
  .inr (.inl ⟨_, ofNat_byte_ne hn (by decide) h, responseWord_eq_add .nonceSize _ _⟩)

/-! ## How a command is answered -/

/-- The outcomes of a command that the spec allows from state `s`. -/
inductive AnswersLegally (s : State) : Result → Prop
  /-- R68: OK and a block of a listed length; the state may have changed, the earlier responses have not. -/
  | success (u : State) (R : List Byte) (hresponses : u.responses = s.responses) (hlen : R.length ∈ [0, 8, 16, 64]) :
      AnswersLegally s (.next (u.pushResponse ⟨0, R⟩))
  /-- R207: an error of R201, which leaves `s` but for the response. -/
  | error (w : Word) (hw : LegalErrorWord w) : AnswersLegally s (.next (s.pushResponse ⟨w, []⟩))

/-- R201, R207 for every instruction that can be sent. -/
theorem exec_answersLegally (i : Instr) (s : State) (h : i.wf = true) : AnswersLegally s (exec i s) := by
  cases i with
  | qr a b c d =>
    rw [exec_qr]
    exact .success s _ rfl (by simp)
  | dround S =>
    rw [exec_dround]
    exact .success s _ rfl (by simp)
  | init key nonce counter =>
    obtain ⟨hk, hn⟩ : key.length ≤ 255 ∧ nonce.length ≤ 255 := by simpa [Instr.wf, lengthFits] using h
    by_cases hkey : key.length = 32
    · by_cases hnonce : nonce.length = 12
      · rw [exec_init_ok counter s hkey hnonce]
        exact .success s _ rfl (by simp)
      · rw [exec_init_nonceSize counter s hkey hnonce]
        exact .error _ (legalErrorWord_nonceSize hn hnonce)
    · rw [exec_init_keySize counter s hkey]
      exact .error _ (legalErrorWord_keySize hk hkey)
  | lane key counter =>
    rw [exec_lane]
    exact .success s _ rfl (by simp)
  | seed K =>
    rw [exec_seed]
    exact .success _ [] rfl (by simp)
  | next =>
    rcases generator_situation s with hg | ⟨hg, hi⟩ | ⟨hg, j, hj⟩
    · rw [exec_next_notSeeded s hg]
      exact .error _ (.inr (.inr (by decide)))
    · rw [exec_next_exhausted s hg hi]
      exact .error _ (.inr (.inr (by decide)))
    · rw [exec_next_output s j hg hj]
      exact .success (s.advance j) _ rfl (by simp)

/-- R201, R207 for every transaction: the decoder refuses it, or accepts an instruction that can be sent. -/
theorem transact_answersLegally (c : Command) (s : State) : AnswersLegally s (transact c s) := by
  cases hd : decode c with
  | error e =>
    rw [transact_refused c s e hd]
    exact .error _ (legalErrorWord_illegal e)
  | ok i =>
    rw [transact_accepted c s i hd]
    exact exec_answersLegally i s (encodeDecodeRoundTrip c i hd).1

/-- A legal answer adds one response to the record, and a legal one. -/
theorem AnswersLegally.responses_eq {s t : State} (h : AnswersLegally s (.next t)) :
    ∃ r, t.responses = s.responses ++ [r] ∧ LegalResponse r := by
  cases h with
  | success u R hresponses hlen => exact ⟨⟨0, R⟩, by simp [hresponses], .inl ⟨rfl, hlen⟩⟩
  | error w hw => exact ⟨⟨w, []⟩, rfl, .inr ⟨rfl, hw⟩⟩

/-- R207: an answer whose status is not OK has no bytes, and nothing but the response is new. -/
theorem AnswersLegally.eq_pushResponse {s t : State} {r : Response} (h : AnswersLegally s (.next t))
    (hr : t.responses = s.responses ++ [r]) (hstatus : r.word.extractLsb' 0 8 ≠ 0) :
    r.result = [] ∧ t = s.pushResponse r := by
  cases h with
  | success u R hresponses hlen =>
    rw [State.pushResponse_responses, hresponses] at hr
    obtain rfl : ⟨0, R⟩ = r := by simpa using hr
    exact absurd rfl hstatus
  | error w hw =>
    obtain rfl : ⟨w, []⟩ = r := by simpa using hr
    exact ⟨rfl, rfl⟩

/-! ## Runs without a SEED -/

/-- R205, R209: without a SEED an unseeded block stays unseeded, over a command or a reset. -/
theorem step_keeps_notSeeded (s : State) (e : PortEvent) (rest : List PortEvent) (hp : s.pending = e :: rest)
    (hg : s.genValid = false) (he : keepsGenerator e = true ∨ isCommand e = false) :
    ∃ t, step s = .next t ∧ t.pending = rest ∧ t.genValid = false := by
  cases e with
  | command c =>
    have hkeep : keepsGenerator (.command c) = true := he.resolve_right (by simp [isCommand])
    obtain ⟨r, hstep⟩ := step_only_answers s c rest hp hkeep fun _ h => absurd (hg.symm.trans h) (by decide)
    exact ⟨_, hstep, rfl, hg⟩
  | reset => exact ⟨_, step_event s _ rest hp, rfl, rfl⟩
  | abort c => exact ⟨_, step_event s _ rest hp, rfl, rfl⟩

theorem run_keeps_notSeeded (events : List PortEvent) (s : State) (hg : s.genValid = false) (hp : s.pending = events)
    (hev : ∀ e ∈ events, keepsGenerator e = true ∨ isCommand e = false) :
    ∃ t, core.run events.length s = .next t ∧ t.genValid = false := by
  induction events generalizing s with
  | nil => exact ⟨s, rfl, hg⟩
  | cons e events ih =>
    obtain ⟨he, hevents⟩ := List.forall_mem_cons.mp hev
    obtain ⟨u, hstep, hup, hug⟩ := step_keeps_notSeeded s e events hp hg he
    obtain ⟨t, hrun, htg⟩ := ih u hug hup hevents
    exact ⟨t, (run_succ _ s u hstep).trans hrun, htg⟩

end Sys2Proof.Safety
end

section
/-! SUPPORT. The statements about errors and the idle block of spec/60_exceptions.md, settled. -/

namespace Sys2Proof

open Sys2Proof.Machine Sys2Proof.Safety

/-- Settles O20, over the three things a step can do: only the one that serves a transaction adds a response. -/
theorem stepKeepsResponsesLegal : Obligations.StepKeepsResponsesLegal := by
  intro s t hs ht
  rcases step_cases s with ⟨_, h⟩ | ⟨_, rest, _, _, h⟩ | ⟨c, rest, _, h, _⟩
  · cases h.symm.trans ht
    exact hs
  · cases h.symm.trans ht
    exact hs
  · have hanswer := transact_answersLegally c (s.withPending rest)
    rw [← h, ht] at hanswer
    obtain ⟨r, hr, hlegal⟩ := hanswer.responses_eq
    rw [ResponsesLegal, hr, List.forall_mem_append]
    exact ⟨hs, List.forall_mem_singleton.mpr hlegal⟩

/-- Settles O14: an error leaves the state the transaction found, which is the earlier one without the served event. -/
theorem errorsWriteNoState : Obligations.ErrorsWriteNoState := by
  intro s t c rest r hp ht hr hstatus
  have hanswer := transact_answersLegally c (s.withPending rest)
  rw [← step_command s c rest hp, ht] at hanswer
  obtain ⟨hresult, rfl⟩ := hanswer.eq_pushResponse hr hstatus
  exact ⟨(sameGenerator_withPending s rest).trans (sameGenerator_pushResponse _ r), hresult, rfl⟩

/-- Settles O46: the block is still unseeded after the run, and NEXT is refused there. -/
theorem notSeededUntilSeed : Obligations.NotSeededUntilSeed := by
  intro events s hg hp hev
  obtain ⟨t, hrun, htg⟩ := run_keeps_notSeeded events s hg hp hev
  exact ⟨t, hrun, exec_next_notSeeded t htg⟩

/-- Settles O10: the refusal's word, for each of the three details. -/
theorem stepRefusesUndecoded : Obligations.StepRefusesUndecoded := by
  intro s c rest e hp hd
  rw [step_command s c rest hp, transact_refused c _ e hd]
  cases e with
  | reservedOpcode => rw [responseWord_reservedOpcode]; rfl
  | reservedBit => rw [responseWord_reservedBit]; rfl
  | operandLength => rw [responseWord_operandLength]; rfl

/-- Settles O11: of the three things a step can do, the other two have an event at the port. -/
theorem idleStepHoldsState : Obligations.IdleStepHoldsState := by
  intro s hp
  rcases step_cases s with ⟨_, h⟩ | ⟨e, rest, hp', _⟩ | ⟨c, rest, hp', _⟩
  · exact h
  · cases hp.symm.trans hp'
  · cases hp.symm.trans hp'

end Sys2Proof
end

section
/-! SUPPORT. What the host can tell apart (spec/70_reset_and_hazards.md R241, R242): two blocks that answer alike now
answer alike for ever, and an unseeded block's lanes and cursor make no difference. -/

namespace Sys2Proof.Safety

open Sys2Proof.Machine

/-! ## After power-on -/

/-- R240, R241: after power-on there is no generator, and the cursor stands at its start. -/
theorem generatorInv_reset : GeneratorInv State.reset :=
  ⟨by simp, by simp, by simp⟩

/-! ## Blocks that answer alike -/

/-- Two blocks that the host cannot tell apart: the same port with the same record, and either no generator in both or
the same one. Lanes, IDX and FLIP of an unseeded block do not matter (R241, R242), nor does the count of resets. -/
structure Indistinguishable (s u : State) : Prop where
  pending : s.pending = u.pending
  responses : s.responses = u.responses
  generator : (s.genValid = false ∧ u.genValid = false) ∨ SameGenerator s u

namespace Indistinguishable

variable {s u : State}

theorem withPending (h : Indistinguishable s u) (events : List PortEvent) :
    Indistinguishable (s.withPending events) (u.withPending events) :=
  ⟨rfl, h.responses, h.generator⟩

theorem pushResponse (h : Indistinguishable s u) (r : Response) :
    Indistinguishable (s.pushResponse r) (u.pushResponse r) :=
  ⟨h.pending, by simp [h.responses], h.generator⟩

/-- R240: a reset leaves no generator in either. -/
theorem enterReset (h : Indistinguishable s u) : Indistinguishable s.enterReset u.enterReset :=
  ⟨h.pending, h.responses, .inl ⟨rfl, rfl⟩⟩

/-- R22, R160: a SEED writes all that two unseeded blocks could differ in. -/
theorem seed (h : Indistinguishable s u) (K : Key) :
    Indistinguishable (((s.withLanes (seedLanes K)).withCursor 0 true).withGenValid true)
      (((u.withLanes (seedLanes K)).withCursor 0 true).withGenValid true) :=
  ⟨h.pending, h.responses, .inr ⟨rfl, rfl, rfl, rfl⟩⟩

/-- R167, R168: NEXT looks at GEN_VALID first, and at lanes and cursor only where there is a generator. -/
theorem exec_next (h : Indistinguishable s u) :
    ∃ s' u', exec .next s = .next s' ∧ exec .next u = .next u' ∧ Indistinguishable s' u' := by
  rcases h.generator with ⟨hs, hu⟩ | hsame
  · exact ⟨_, _, exec_next_notSeeded s hs, exec_next_notSeeded u hu, h.pushResponse _⟩
  · obtain ⟨s', u', r, hs', hu', hsame', hrs, hru⟩ := exec_next_sameGenerator hsame
    obtain ⟨_, _, hs'', hu'', _, hps, hpu⟩ := exec_sameGenerator .next hsame
    cases hs'.symm.trans hs''
    cases hu'.symm.trans hu''
    exact ⟨s', u', hs', hu', hps.trans (h.pending.trans hpu.symm), by rw [hrs, hru, h.responses], .inr hsame'⟩

/-- R32, R160, R162: only SEED and NEXT touch the generator, and SEED does not read it. -/
theorem exec (h : Indistinguishable s u) (i : Instr) :
    ∃ s' u', exec i s = .next s' ∧ exec i u = .next u' ∧ Indistinguishable s' u' := by
  by_cases hp : isPure i = true
  · obtain ⟨r, hr⟩ := exec_pure i hp
    exact ⟨_, _, hr s, hr u, h.pushResponse r⟩
  · cases i with
    | seed K => exact ⟨_, _, exec_seed K s, exec_seed K u, (h.seed K).pushResponse _⟩
    | next => exact h.exec_next
    | _ => exact absurd rfl hp

/-- R72: the decoder does not see the state. -/
theorem transact (h : Indistinguishable s u) (c : Command) :
    ∃ s' u', transact c s = .next s' ∧ transact c u = .next u' ∧ Indistinguishable s' u' := by
  cases hd : decode c with
  | error e => exact ⟨_, _, transact_refused c s e hd, transact_refused c u e hd, h.pushResponse _⟩
  | ok i =>
    rw [transact_accepted c s i hd, transact_accepted c u i hd]
    exact h.exec i

/-- R243: a reset, during a command or not, answers nothing. -/
theorem serve (h : Indistinguishable s u) (e : PortEvent) :
    ∃ s' u', serve e s = .next s' ∧ serve e u = .next u' ∧ Indistinguishable s' u' := by
  cases e with
  | command c => exact h.transact c
  | reset => exact ⟨_, _, rfl, rfl, h.enterReset⟩
  | abort c => exact ⟨_, _, rfl, rfl, h.enterReset⟩

theorem step (h : Indistinguishable s u) :
    ∃ s' u', step s = .next s' ∧ step u = .next u' ∧ Indistinguishable s' u' := by
  cases hs : s.pending with
  | nil => exact ⟨s, u, idleStepHoldsState s hs, idleStepHoldsState u (h.pending.symm.trans hs), h⟩
  | cons e rest =>
    have hu : u.pending = e :: rest := h.pending.symm.trans hs
    rw [step_event s e rest hs, step_event u e rest hu]
    exact (h.withPending rest).serve e

theorem run (h : Indistinguishable s u) (n : Nat) :
    ∃ t v, core.run n s = .next t ∧ core.run n u = .next v ∧ Indistinguishable t v := by
  induction n generalizing s u with
  | zero => exact ⟨s, u, rfl, rfl, h⟩
  | succ n ih =>
    obtain ⟨s', u', hs, hu, h'⟩ := h.step
    rw [run_succ n s s' hs, run_succ n u u' hu]
    exact ih h'

end Indistinguishable

end Sys2Proof.Safety
end

section
/-! SUPPORT. The statements about reset and hazards of spec/70_reset_and_hazards.md, settled. -/

namespace Sys2Proof

open Sys2Proof.Machine Sys2Proof.Safety

/-- Settles O12: `transact_answersOnce` gives the one response, and `transact_answersLegally` says that it carries no
bytes where its status is not OK. -/
theorem everyCommandAnsweredOnce : Obligations.EveryCommandAnsweredOnce := by
  intro s c rest hp
  obtain ⟨t, r, ht, hr, htp, _⟩ := transact_answersOnce c (s.withPending rest)
  have hanswer := transact_answersLegally c (s.withPending rest)
  rw [ht] at hanswer
  exact ⟨t, r, (step_command s c rest hp).trans ht, hr, htp, fun hstatus => (hanswer.eq_pushResponse hr hstatus).1⟩

/-- Settles O17: two unseeded blocks with the same port and record cannot be told apart, and a run keeps that. -/
theorem unseededStateNeverObserved : Obligations.UnseededStateNeverObserved := by
  intro n s u t hs hu hp hr ht
  have hstart : Indistinguishable s u := ⟨hp, hr, .inl ⟨hs, hu⟩⟩
  obtain ⟨t', v, ht', hv, hend⟩ := hstart.run n
  cases ht.symm.trans ht'
  exact ⟨v, hv, hend.responses.symm⟩

/-- Settles O15, field by field. -/
theorem resetLeavesNoGenerator : Obligations.ResetLeavesNoGenerator :=
  ⟨State.reset_genValid, State.reset_idx, State.reset_flip, State.reset_pending⟩

/-- Settles O16: both kinds of reset leave the same state. -/
theorem resetAbortsWithoutResponse : Obligations.ResetAbortsWithoutResponse := by
  intro s c rest hp
  have hstep : step s = .next (s.withPending rest).enterReset := by
    rcases hp with hp | hp
    · exact step_event s (.abort c) rest hp
    · exact step_event s .reset rest hp
  exact ⟨_, hstep, rfl, rfl, rfl, rfl, rfl⟩

/-- Settles O19: no generator after power-on, and nothing answered yet. -/
theorem resetMeetsInvariants : Obligations.ResetMeetsInvariants :=
  ⟨generatorInv_reset, by simp [ResponsesLegal]⟩

end Sys2Proof
end

section
/-! SUPPORT. The statement about a step of spec/20_memory.md section 4 and spec/30_encoding.md section 5, settled. -/

namespace Sys2Proof

open Sys2Proof.Machine

/-- Settles O9: the step takes the transaction off the port (R51), and the block runs what it accepts (R72). -/
theorem stepRunsDecodedCommand : Obligations.StepRunsDecodedCommand := by
  intro s c rest i hp hd
  calc step s
    _ = transact c (s.withPending rest) := step_command s c rest hp
    _ = exec i (s.withPending rest) := transact_accepted c _ i hd

end Sys2Proof
end
